-- ==== Sys2Proof/Word.lean ====
section
/-!
DEFINITION. The value types of the block (spec 00_scope.md R8 to R10; 20_memory.md R49).
Bit 0 is the least significant bit of every value (R9).
-/
namespace Sys2Proof

/-- BYTE_W = 8: generator, key, message byte, digest, byte-wide fields (R8). -/
abbrev Byte := BitVec 8

/-- CODE_W = 64: a telegram code (R8, R44). -/
abbrev Code := BitVec 64

/-- RES_W = 16: a value on the result port RES (R8, R66). -/
abbrev Result := BitVec 16

/-- The 4-bit command word `cmd[3:0]`, all of it the opcode (R55). -/
abbrev CmdWord := BitVec 4

end Sys2Proof
end

