-- ==== Sys2Proof/Config.lean ====
section
/-!
DEFINITION. The parameters of 00_scope.md R8: the fixed constants of the block, and the record of the
OPEN parameters. A value of `Params` is held in the machine's state as read-only data, so that whatever
is stated of every state is stated of every value of the OPEN parameters (log 1).
-/
namespace Sys2Proof

/-- The OPEN parameters of R8 (decisions D6, D7, D8). -/
structure Params where
  /-- PROTO_W: bits of the protocol operand. -/
  protoW : Nat
  /-- SIZE_W: bits of the size operand. -/
  sizeW : Nat
  /-- DIGEST_MAX_LEN: the longest DIGEST message in bytes; `none` is "unbounded". -/
  digestMaxLen : Option Nat
  deriving DecidableEq, Repr

/-- The limits R8 puts on the OPEN parameters: PROTO_W at least 1, SIZE_W at least 6, DIGEST_MAX_LEN at
least 4 or unbounded. -/
def Params.wf (P : Params) : Bool :=
  decide (1 ≤ P.protoW) && decide (6 ≤ P.sizeW) && P.digestMaxLen.all (fun n => decide (4 ≤ n))

namespace Config

/-- TFA_GEN: the generator of the computed checksum (R8, R118). -/
def tfaGen : Byte := 0x31#8

/-- TFA_KEY: the initial key of the computed checksum (R8, R118). -/
def tfaKey : Byte := 0xF4#8

/-- TEMP_OFFSET (R8, R113), as the 13-bit number the subtraction of R116 uses. -/
def tempOffset : BitVec 13 := 500#13

/-- TEMP_SCALE (R8): tenths per degree; the division is the host's (R108). -/
def tempScale : Nat := 10

/-- The values of the OPEN parameters in `State.reset`. DESIGN CHOICE (log 1, unsafe): the spec gives none.
64 bits is the width of the widest operand the spec fixes, and "unbounded" is the source's "any byte
sequence". `State.resetOf` takes any other values. -/
def resetParams : Params := { protoW := 64, sizeW := 64, digestMaxLen := none }

end Config
end Sys2Proof
end

