-- ==== Sys2Proof/Syntax.lean ====
section
/-!
DEFINITION. The commands, one constructor per row of spec/opcode_table.json, with their operands in the
order of the assembler syntax (30_encoding.md R61, R69). RESET is a signal, not a command (R69, R147).
-/
namespace Sys2Proof

/-- A command with its operands. `size` and `proto` are unsigned numbers the spec only compares
(41_telegram_decode.md R92), so they are natural numbers; `WellFormed` keeps them within SIZE_W and
PROTO_W bits (log 8). -/
inductive Instr where
  /-- DIGEST: format D (R58); `msg` is OP_MSG[0] first, and OP_LEN is its length (R57). -/
  | digest (msg : List Byte) (gen key : Byte)
  /-- DECODE: format T (R59). -/
  | decode (proto : Nat) (code : Code) (size : Nat)
  /-- RD_ADDRESS: format R (R60), as the seven below. -/
  | rdAddress
  /-- RD_CHECKSUM. -/
  | rdChecksum
  /-- RD_CHANNEL. -/
  | rdChannel
  /-- RD_TEMPERATURE. -/
  | rdTemperature
  /-- RD_HUMIDITY. -/
  | rdHumidity
  /-- RD_BATTERY_OK. -/
  | rdBatteryOk
  /-- RD_COMPUTED_CHECKSUM. -/
  | rdComputedChecksum
  /-- RD_VERIFIED. -/
  | rdVerified
  deriving DecidableEq, Repr

/-- The eight commands of format R (30_encoding.md R60): the RD_* commands. -/
def Instr.isRead : Instr → Bool
  | .digest _ _ _ => false
  | .decode _ _ _ => false
  | .rdAddress => true
  | .rdChecksum => true
  | .rdChannel => true
  | .rdTemperature => true
  | .rdHumidity => true
  | .rdBatteryOk => true
  | .rdComputedChecksum => true
  | .rdVerified => true

/-- Whether the command is DECODE, the only one that writes a register (20_memory.md R50). -/
def Instr.isDecode : Instr → Bool
  | .digest _ _ _ => false
  | .decode _ _ _ => true
  | .rdAddress => false
  | .rdChecksum => false
  | .rdChannel => false
  | .rdTemperature => false
  | .rdHumidity => false
  | .rdBatteryOk => false
  | .rdComputedChecksum => false
  | .rdVerified => false

end Sys2Proof
end

