-- ==== Sys2Proof/WellFormed.lean ====
section
/-!
DEFINITION. What the operand ports can carry (20_memory.md R49; 30_encoding.md R56): a protocol of
PROTO_W bits and a size of SIZE_W bits. Every other operand type has exactly its port's values. A DIGEST
message of any length is well formed: a longer one than DIGEST_MAX_LEN is refused when it runs (R133).
-/
namespace Sys2Proof

/-- The operands fit their ports (R49, R56). -/
def WellFormed (P : Params) : Instr → Bool
  | .digest _ _ _ => true
  | .decode proto _ size => decide (proto < 2 ^ P.protoW) && decide (size < 2 ^ P.sizeW)
  | .rdAddress => true
  | .rdChecksum => true
  | .rdChannel => true
  | .rdTemperature => true
  | .rdHumidity => true
  | .rdBatteryOk => true
  | .rdComputedChecksum => true
  | .rdVerified => true

end Sys2Proof
end

