-- ==== Sys2Proof/Decode.lean ====
section
/-!
DEFINITION. The command interface of 30_encoding.md: the values the host drives on the ports, the
decoder (the opcode map of R61), and the encoder written from the same map. Decoding is total: a word
that R61 reserves is rejected by name, and no operand value is (R64, R71).
-/
namespace Sys2Proof

/-- What the host drives with one command (R55 to R57). OP_LEN is not held twice: it is the number of
bytes on OP_MSG (log 9). -/
structure Ports where
  cmd : CmdWord
  opProto : Nat := 0
  opCode : Code := 0#64
  opSize : Nat := 0
  opGen : Byte := 0#8
  opKey : Byte := 0#8
  opMsg : List Byte := []
  deriving DecidableEq, Repr

/-- OP_LEN, the number n of message bytes (R57). -/
def Ports.opLen (p : Ports) : Nat := p.opMsg.length

/-- Why the decoder gives no command. -/
inductive DecodeRejection where
  /-- cmd 0x0 and 0x3 to 0x7 (R64), with the command word (R134). -/
  | reservedOpcode (cmd : CmdWord)
  deriving DecidableEq, Repr

/-- What `w` wires carry of a number: its low `w` bits (R49). -/
def onWires (w n : Nat) : Nat := n % 2 ^ w

/-- The decoder: the opcode map of R61, reading the ports of each format (R58 to R60) and no others. -/
def decodePorts (P : Params) (p : Ports) : Except DecodeRejection Instr :=
  match p.cmd with
  | 0x1#4 => .ok (.digest p.opMsg p.opGen p.opKey)
  | 0x2#4 => .ok (.decode (onWires P.protoW p.opProto) p.opCode (onWires P.sizeW p.opSize))
  | 0x8#4 => .ok .rdAddress
  | 0x9#4 => .ok .rdChecksum
  | 0xA#4 => .ok .rdChannel
  | 0xB#4 => .ok .rdTemperature
  | 0xC#4 => .ok .rdHumidity
  | 0xD#4 => .ok .rdBatteryOk
  | 0xE#4 => .ok .rdComputedChecksum
  | 0xF#4 => .ok .rdVerified
  | cmd => .error (.reservedOpcode cmd)

/-- The command word of a command (R61). -/
def Instr.opcode : Instr → CmdWord
  | .digest _ _ _ => 0x1#4
  | .decode _ _ _ => 0x2#4
  | .rdAddress => 0x8#4
  | .rdChecksum => 0x9#4
  | .rdChannel => 0xA#4
  | .rdTemperature => 0xB#4
  | .rdHumidity => 0xC#4
  | .rdBatteryOk => 0xD#4
  | .rdComputedChecksum => 0xE#4
  | .rdVerified => 0xF#4

/-- The encoder: the ports the host drives for a command (R58 to R60, R69). A port the format does not
read is driven with zeros. DESIGN CHOICE (log 13, safe): the block ignores it (R56). -/
def encode : Instr → Ports
  | .digest msg gen key => { cmd := 0x1#4, opMsg := msg, opGen := gen, opKey := key }
  | .decode proto code size => { cmd := 0x2#4, opProto := proto, opCode := code, opSize := size }
  | .rdAddress => { cmd := 0x8#4 }
  | .rdChecksum => { cmd := 0x9#4 }
  | .rdChannel => { cmd := 0xA#4 }
  | .rdTemperature => { cmd := 0xB#4 }
  | .rdHumidity => { cmd := 0xC#4 }
  | .rdBatteryOk => { cmd := 0xD#4 }
  | .rdComputedChecksum => { cmd := 0xE#4 }
  | .rdVerified => { cmd := 0xF#4 }

/-- The ports that a word of spec/opcode_table.json stands for: bits 3 to 0 are the command word, and the
table gives the operand ports no bits, so they carry zeros and an empty message. The bits that fill the
4-bit row up to a whole byte are on no wire of the command port. DESIGN CHOICE (log 10). -/
def Ports.ofTableWord (nbits w : Nat) : Ports :=
  { cmd := BitVec.ofNat 4 (w % 2 ^ nbits) }

/-- The command the decoder reads from a word of the opcode table. -/
def decodeTableWord (nbits w : Nat) : Option Instr :=
  (decodePorts Config.resetParams (Ports.ofTableWord nbits w)).toOption

end Sys2Proof
end

