-- ==== Sys2Proof/Machine/State.lean ====
section
/-!
DEFINITION. The state: the pair (H, T) of 10_state.md R20, the result port RES, and the two fields that
are the model's own, `inputs` (logs 3 and 5) and `params` (log 1); the outcomes other than a next state
(60_exceptions.md R134); and the state after reset (R39, R150).
-/
namespace Sys2Proof.Machine

/-- The history register H, "Decoder History" (R24). -/
structure History where
  /-- 1: the slot holds a triple. -/
  valid : Bool
  /-- The last code with bit 0 cleared. -/
  code : Code
  /-- The last size, SIZE_W bits. -/
  size : Nat
  /-- The last protocol, PROTO_W bits. -/
  proto : Nat
  deriving DecidableEq, Repr

/-- The telegram register T, the decoded snapshot (R29). -/
structure Telegram where
  /-- 1: a DECODE has completed since reset. -/
  valid : Bool
  /-- The code operand of the last DECODE, bit 0 included (R31). -/
  code : Code
  /-- The size operand of the last DECODE; no command reads it (R32). -/
  size : Nat
  /-- The protocol operand of the last DECODE; no command reads it (R32). -/
  proto : Nat
  /-- The duplicate-verification flag (R33, R35). -/
  verified : Bool
  deriving DecidableEq, Repr

/-- What the host can do to the block: issue a command with its operands (R55, R56), or drive the RESET
signal between commands (R150, R151). -/
inductive HostInput where
  | command (p : Ports)
  | reset
  deriving DecidableEq, Repr

/-- The state of the machine. -/
structure State where
  /-- The history register (R24). -/
  H : History
  /-- The telegram register (R29). -/
  T : Telegram
  /-- RES: what the last completed command drove, `none` where it drove nothing (R66, R67; log 6). -/
  res : Option Result
  /-- What the host does next, first one first; the model's own field (R51, R55; logs 3 and 5). -/
  inputs : List HostInput
  /-- The OPEN parameters of R8; the model's own field, changed by no step (log 1). -/
  params : Params
  deriving DecidableEq, Repr

/-- Why a step ends in a fault: a mark of the model on the run, not a signal of the hardware (R130, R134). -/
inductive Fault where
  /-- Raised by the eight RD_* commands while T.valid = 0, with the command word; H and T stay as they were
  (R105, R132, R137). Safe: where some hardware might return a stale value, the model stops (D5, log 7). -/
  | readBeforeDecode (cmd : CmdWord)
  deriving DecidableEq, Repr

/-- Why a step ends in a refusal: the command has no meaning (R11, R134). -/
inductive Refusal where
  /-- Raised for cmd 0x0 and 0x3 to 0x7, with the command word (R64, R131). Safe (D13, log 7). -/
  | reservedOpcode (cmd : CmdWord)
  /-- Raised by DIGEST when OP_LEN exceeds DIGEST_MAX_LEN, with OP_LEN (R80, R133). Safe (D8, log 7). -/
  | messageTooLong (len : Nat)
  /-- Raised by an arm of `exec` whose instruction has no meaning yet; no arm of this model does. Safe. -/
  | notModelled (mnemonic : String)
  deriving DecidableEq, Repr

/-- The state right after reset, for given values of the OPEN parameters (R8): H.valid = 0 and T.valid = 0
(R39, R150), no result, and no input pending: the block waits for a command (R152). The other fields of H
and T are unspecified after reset; their zeros here are a DESIGN CHOICE (log 2, unsafe). -/
def State.resetOf (P : Params) : State :=
  { H := { valid := false, code := 0#64, size := 0, proto := 0 }
    T := { valid := false, code := 0#64, size := 0, proto := 0, verified := false }
    res := none
    inputs := []
    params := P }

/-- The machine right after reset, with the parameter values of log 1. -/
def State.reset : State := State.resetOf Config.resetParams

end Sys2Proof.Machine
end

