-- ==== Sys2Proof/Machine/Engine.lean ====
section
/-!
DEFINITION. The checksum engine of 40_checksum_engine.md: the key's shift-register step and the digest.
Pure: the engine keeps no state between commands (10_state.md R23).
-/
namespace Sys2Proof.Machine

/-- One step of the key's shift register (R77): shift left, dropping the top bit, then XOR with the
generator when the bit shifted out was 1. -/
def lfsrStep (key gen : Byte) : Byte :=
  if key.getLsbD 7 then (key <<< 1) ^^^ gen else key <<< 1

/-- The engine's two transient registers during one command (R23, R76). -/
structure EngineRegs where
  sum : Byte
  key : Byte
  deriving DecidableEq, Repr

/-- The body of the inner loop of R76, for one message bit. -/
def engineBit (gen : Byte) (bit : Bool) (e : EngineRegs) : EngineRegs :=
  { sum := if bit then e.sum ^^^ e.key else e.sum
    key := lfsrStep e.key gen }

/-- The inner loop of R76: the bits of one byte, from bit 0 up to bit 7. -/
def engineByte (gen : Byte) (e : EngineRegs) (b : Byte) : EngineRegs :=
  (List.range 8).foldl (fun e i => engineBit gen (b.getLsbD i) e) e

/-- The outer loop of R76: the bytes from the last, m[n-1], to the first, m[0]. -/
def engineMessage (gen : Byte) (msg : List Byte) (e : EngineRegs) : EngineRegs :=
  msg.reverse.foldl (engineByte gen) e

/-- The digest of R76: the final sum, from sum 0x00 and the key operand. -/
def digest (msg : List Byte) (gen key : Byte) : Byte :=
  (engineMessage gen msg { sum := 0x00#8, key := key }).sum

end Sys2Proof.Machine
end

