-- ==== Sys2Proof/Machine/Operands.lean ====
section
/-!
DEFINITION. What the commands compute from a telegram code: the fields of 30_encoding.md R62 (as read in
90_conflicts.md C1: offsets count from bit 1), the checksum message and the computed checksum
(42_field_extract.md R117, R118), and the packing of results on RES (R66). Each function is defined for
every 64-bit code (R106).
-/
namespace Sys2Proof.Machine

/-- `c1`, the code with bit 0 cleared: "code & ~1" (00_scope.md R15). -/
def clearToggle (c : Code) : Code := c &&& ~~~1#64

/-- `ext_checksum(c) = c[8:1]` (R111). -/
def extChecksum (c : Code) : Byte := c.extractLsb 8 1

/-- `ext_humidity(c) = c[16:9]` (R114). -/
def extHumidity (c : Code) : Byte := c.extractLsb 16 9

/-- `ext_temp_raw(c) = c[28:17]`, unsigned (R113; 90_conflicts.md C4). -/
def extTempRaw (c : Code) : BitVec 12 := c.extractLsb 28 17

/-- `ext_channel(c) = c[30:29]` (R112). -/
def extChannel (c : Code) : BitVec 2 := c.extractLsb 30 29

/-- `ext_send_mode(c) = c[31]`: 0 is automatic, 1 is manual; no command returns it (R107). -/
def extSendMode (c : Code) : Bool := c.getLsbD 31

/-- The stored battery bit, c[32]: 0 means OK, 1 means LOW (R62). -/
def extBattery (c : Code) : Bool := c.getLsbD 32

/-- `ext_battery_ok(c) = NOT c[32]` (R115). -/
def extBatteryOk (c : Code) : Bool := !extBattery c

/-- `ext_address(c) = c[40:33]` (R110). -/
def extAddress (c : Code) : Byte := c.extractLsb 40 33

/-- `ext_temp_tenths(c) = zext_13(ext_temp_raw(c)) - 500`, in 13-bit two's complement (R113, R116). -/
def extTempTenths (c : Code) : BitVec 13 := (extTempRaw c).setWidth 13 - Config.tempOffset

/-- `W(c) = c[40:9]`, the span from humidity through address (R15; 90_conflicts.md C2). -/
def checksumWord (c : Code) : BitVec 32 := c.extractLsb 40 9

/-- `buf(c)`, the four-byte checksum message, most significant byte first (20_memory.md R45, R117). -/
def checksumBuffer (c : Code) : List Byte :=
  [c.extractLsb 40 33, c.extractLsb 32 25, c.extractLsb 24 17, c.extractLsb 16 9]

/-- `tfa_checksum(c)`: the digest of buf(c) with generator 0x31 and key 0xF4 (R118). -/
def tfaChecksum (c : Code) : Byte := digest (checksumBuffer c) Config.tfaGen Config.tfaKey

/-- `zext_16` of an unsigned value: every result but the temperature (R66). -/
def packUnsigned {w : Nat} (v : BitVec w) : Result := v.setWidth 16

/-- `sext_16` of a two's-complement value: the temperature (R66). -/
def packSigned {w : Nat} (v : BitVec w) : Result := v.signExtend 16

/-- `zext_16` of a one-bit value: battery_ok and verified (R66). -/
def packBool (b : Bool) : Result := packUnsigned (BitVec.ofBool b)

end Sys2Proof.Machine
end

