-- ==== Sys2Proof/Machine/Flags.lean ====
section
/-!
DEFINITION. The one status flag the block computes: T.verified, DECODE's duplicate match
(10_state.md R35; 41_telegram_decode.md R91, R92). There are no condition codes (R35).
-/
namespace Sys2Proof.Machine

/-- The match of R91: the slot holds a triple, and code (with bit 0 cleared), size and protocol are all
exactly equal to it. While H.valid = 0 it is false, whatever else H holds (R25). -/
def duplicateMatch (h : History) (proto : Nat) (code : Code) (size : Nat) : Bool :=
  h.valid && decide (h.code = clearToggle code) && decide (h.size = size) && decide (h.proto = proto)

end Sys2Proof.Machine
end

