-- ==== Sys2Proof/Machine/Ops.lean ====
section
/-!
DEFINITION. The named operations over the registers that the meanings share. The block has no memory
(20_memory.md R40) and takes no exception and returns from none (60_exceptions.md R130, R137, R138), so
there is no operation for either.
-/
namespace Sys2Proof.Machine

/-- A command ends by driving RES, all 16 bits of it (30_encoding.md R66), and writes nothing else. -/
def State.driveRes (s : State) (r : Result) : State := { s with res := some r }

/-- DECODE's writes (41_telegram_decode.md R90, R93, R95): T takes the telegram as given and the match
flag, H takes the triple with bit 0 cleared, both become valid, and RES is not driven (30_encoding.md R67).
All take effect together (00_scope.md R11). -/
def State.latchTelegram (s : State) (proto : Nat) (code : Code) (size : Nat) (verified : Bool) : State :=
  { s with
    T := { valid := true, code := code, size := size, proto := proto, verified := verified }
    H := { valid := true, code := clearToggle code, size := size, proto := proto }
    res := none }

/-- The RESET signal (70_reset_and_hazards.md R150): H and T become empty. It goes to the state after
reset, with the same parameters; the inputs still pending stay (log 5). -/
def State.resetSignal (s : State) : State := { State.resetOf s.params with inputs := s.inputs }

/-- What every RD_* command runs (42_field_extract.md R105): a fault while T.valid = 0, with the command
word (60_exceptions.md R134); otherwise RES takes the packed value computed from T. -/
def readTelegram (cmd : CmdWord) (value : Telegram → Result) (s : State) :
    Host.Outcome State Fault Refusal :=
  if s.T.valid then .next (s.driveRes (value s.T)) else .fault (.readBeforeDecode cmd)

/-- Whether a DIGEST message of `len` bytes exceeds DIGEST_MAX_LEN; never when that is unbounded (R133). -/
def exceedsMaxLen (P : Params) (len : Nat) : Bool :=
  P.digestMaxLen.any (fun bound => decide (bound < len))

/-- The refusal that a rejected command word ends in (R131). -/
def refusalOf : DecodeRejection → Refusal
  | .reservedOpcode cmd => .reservedOpcode cmd

end Sys2Proof.Machine
end

