-- ==== Sys2Proof/Machine/Checksum.lean ====
section
/-!
DEFINITION. The meaning of DIGEST (40_checksum_engine.md R80).
-/
namespace Sys2Proof.Machine

/-- DIGEST (R80): refused when the message is longer than DIGEST_MAX_LEN (R133); otherwise RES takes the
zero-extended digest. It reads and writes neither H nor T. -/
def execDigest (msg : List Byte) (gen key : Byte) (s : State) : Host.Outcome State Fault Refusal :=
  if exceedsMaxLen s.params msg.length then .refused (.messageTooLong msg.length)
  else .next (s.driveRes (packUnsigned (digest msg gen key)))

end Sys2Proof.Machine
end

