-- ==== Sys2Proof/Machine/FieldRead.lean ====
section
/-!
DEFINITION. The meanings of the eight RD_* commands (42_field_extract.md R105, R110 to R115, R119, R121).
-/
namespace Sys2Proof.Machine

/-- RD_ADDRESS (R110). -/
def execRdAddress (s : State) : Host.Outcome State Fault Refusal :=
  readTelegram Instr.rdAddress.opcode (fun t => packUnsigned (extAddress t.code)) s

/-- RD_CHECKSUM (R111): the transmitted checksum. -/
def execRdChecksum (s : State) : Host.Outcome State Fault Refusal :=
  readTelegram Instr.rdChecksum.opcode (fun t => packUnsigned (extChecksum t.code)) s

/-- RD_CHANNEL (R112). -/
def execRdChannel (s : State) : Host.Outcome State Fault Refusal :=
  readTelegram Instr.rdChannel.opcode (fun t => packUnsigned (extChannel t.code)) s

/-- RD_TEMPERATURE (R113): tenths of a degree, signed. -/
def execRdTemperature (s : State) : Host.Outcome State Fault Refusal :=
  readTelegram Instr.rdTemperature.opcode (fun t => packSigned (extTempTenths t.code)) s

/-- RD_HUMIDITY (R114): no clamp (R109). -/
def execRdHumidity (s : State) : Host.Outcome State Fault Refusal :=
  readTelegram Instr.rdHumidity.opcode (fun t => packUnsigned (extHumidity t.code)) s

/-- RD_BATTERY_OK (R115): the stored bit, inverted. -/
def execRdBatteryOk (s : State) : Host.Outcome State Fault Refusal :=
  readTelegram Instr.rdBatteryOk.opcode (fun t => packBool (extBatteryOk t.code)) s

/-- RD_COMPUTED_CHECKSUM (R119): the expected checksum of the latched telegram. -/
def execRdComputedChecksum (s : State) : Host.Outcome State Fault Refusal :=
  readTelegram Instr.rdComputedChecksum.opcode (fun t => packUnsigned (tfaChecksum t.code)) s

/-- RD_VERIFIED (R121): the flag the last DECODE fixed; nothing is compared again. -/
def execRdVerified (s : State) : Host.Outcome State Fault Refusal :=
  readTelegram Instr.rdVerified.opcode (fun t => packBool t.verified) s

end Sys2Proof.Machine
end

