-- ==== Sys2Proof/Machine/TelegramDecode.lean ====
section
/-!
DEFINITION. The meaning of DECODE (41_telegram_decode.md R90).
-/
namespace Sys2Proof.Machine

/-- DECODE (R90): the match is computed from H as it stood before (R94), then H and T are overwritten
whether or not it matched (R93). It never faults or refuses. -/
def execDecode (proto : Nat) (code : Code) (size : Nat) (s : State) : Host.Outcome State Fault Refusal :=
  .next (s.latchTelegram proto code size (duplicateMatch s.H proto code size))

end Sys2Proof.Machine
end

