-- ==== Sys2Proof/Machine/Dispatch.lean ====
section
/-!
DEFINITION. One arm per command.
-/
namespace Sys2Proof.Machine

def exec (i : Instr) (s : State) : Host.Outcome State Fault Refusal :=
  match i with
  | .digest msg gen key => Sys2Proof.Machine.execDigest msg gen key s
  | .decode proto code size => Sys2Proof.Machine.execDecode proto code size s
  | .rdAddress => Sys2Proof.Machine.execRdAddress s
  | .rdChecksum => Sys2Proof.Machine.execRdChecksum s
  | .rdChannel => Sys2Proof.Machine.execRdChannel s
  | .rdTemperature => Sys2Proof.Machine.execRdTemperature s
  | .rdHumidity => Sys2Proof.Machine.execRdHumidity s
  | .rdBatteryOk => Sys2Proof.Machine.execRdBatteryOk s
  | .rdComputedChecksum => Sys2Proof.Machine.execRdComputedChecksum s
  | .rdVerified => Sys2Proof.Machine.execRdVerified s

end Sys2Proof.Machine
end

