-- ==== Sys2Proof/Machine/Step.lean ====
section
/-!
DEFINITION. One step: the block serves the next thing the host does (30_encoding.md R55; 20_memory.md
R51; 70_reset_and_hazards.md R150 to R152). There is no program counter and no fetch from memory (R21).
-/
namespace Sys2Proof.Machine

/-- The block serves one command: the command word is checked first (60_exceptions.md R136), then the
command runs. -/
def runCommand (p : Ports) (s : State) : Host.Outcome State Fault Refusal :=
  match decodePorts s.params p with
  | .ok i => exec i s
  | .error e => .refused (refusalOf e)

/-- The block serves one thing the host does. -/
def serve (e : HostInput) (s : State) : Host.Outcome State Fault Refusal :=
  match e with
  | .command p => runCommand p s
  | .reset => .next s.resetSignal

/-- One step. With nothing pending the block waits and nothing changes (R152; DEDUCED, log 4). -/
def step (s : State) : Host.Outcome State Fault Refusal :=
  match s.inputs with
  | [] => .next s
  | e :: rest => serve e { s with inputs := rest }

/-- The state with a word of the opcode table as the next command the host issues (log 3). -/
def State.withFetchWord (s : State) (nbits w : Nat) : State :=
  { s with inputs := .command (Ports.ofTableWord nbits w) :: s.inputs }

end Sys2Proof.Machine
end

