-- ==== Sys2Proof/Safety.lean ====
section
/-!
DEFINITION. The terms the claims use: the invariant of the registers (10_state.md R24, R37), runs of
commands and the mark a fault or refusal leaves on them (60_exceptions.md R138; 70_reset_and_hazards.md
R157), when two states differ only in what reset leaves unspecified (R26, R30), the spec's closed forms of
the digest (40_checksum_engine.md R78, R79; 42_field_extract.md R118), and what the host computes from
results (R108, R109, R120).
-/
namespace Sys2Proof.Machine

/-- The invariant of R37, with the widths of R24 and R29. It holds at reset and every step keeps it. -/
structure State.Inv (s : State) : Prop where
  /-- H and T become valid, and empty, together. -/
  valid_eq : s.H.valid = s.T.valid
  /-- H holds the code of T with bit 0 cleared (so H.code[0] = 0, R24). -/
  code_eq : s.T.valid = true → s.H.code = clearToggle s.T.code
  size_eq : s.T.valid = true → s.H.size = s.T.size
  proto_eq : s.T.valid = true → s.H.proto = s.T.proto
  /-- SIZE_W and PROTO_W bits are enough for what the registers hold. -/
  sizeH_lt : s.H.size < 2 ^ s.params.sizeW
  protoH_lt : s.H.proto < 2 ^ s.params.protoW
  sizeT_lt : s.T.size < 2 ^ s.params.sizeW
  protoT_lt : s.T.proto < 2 ^ s.params.protoW

/-- The state after reset, with the host about to do `q` (log 3). -/
def State.resetIssuing (P : Params) (q : List HostInput) : State :=
  { H := (State.resetOf P).H, T := (State.resetOf P).T, res := (State.resetOf P).res, inputs := q, params := P }

/-- Runs a list of commands on a state, in order, stopping at the first that faults or is refused. -/
def runInstrs : List Instr → State → Host.Outcome State Fault Refusal
  | [], s => .next s
  | i :: is, s =>
    match exec i s with
    | .next t => runInstrs is t
    | .fault f => .fault f
    | .refused r => .refused r

/-- Serves a list of commands as the host issues them: the fold of one command's step (20_memory.md R51). -/
def serveCommands : List Ports → State → Host.Outcome State Fault Refusal
  | [], s => .next s
  | p :: ps, s =>
    match runCommand p s with
    | .next t => serveCommands ps t
    | .fault f => .fault f
    | .refused r => .refused r

/-- The outcome with the pending inputs of its next state replaced: what is left when the queue, which is
the model's own field, is not looked at. -/
def withQueue (q : List HostInput) : Host.Outcome State Fault Refusal → Host.Outcome State Fault Refusal
  | .next t => .next { t with inputs := q }
  | .fault f => .fault f
  | .refused r => .refused r

/-- The mark a run carries after a command that did not complete (R138). -/
inductive Stop where
  | fault (f : Fault)
  | refusal (r : Refusal)
  deriving DecidableEq, Repr

/-- A run that goes on past faults and refusals, as the hardware does (R138): the state, the observation of
R157 (one result per command, absent for DECODE), and the first fault or refusal. -/
structure Run where
  state : State
  results : List (Option Result)
  mark : Option Stop
  deriving DecidableEq, Repr

/-- The run's start: a RESET (R157). -/
def Run.start (P : Params) : Run := { state := State.resetOf P, results := [], mark := none }

/-- One command of a run. One that faults or is refused leaves the state as it was and drives no result
(R131 to R133, R137); the first such is kept as the mark (R138). -/
def Run.feed (r : Run) (p : Ports) : Run :=
  match runCommand p r.state with
  | .next t => { state := t, results := r.results ++ [t.res], mark := r.mark }
  | .fault f => { r with results := r.results ++ [none], mark := r.mark.or (some (.fault f)) }
  | .refused e => { r with results := r.results ++ [none], mark := r.mark.or (some (.refusal e)) }

/-- A good run has no fault and no refusal recorded (R157). -/
def Run.good (r : Run) : Bool := r.mark.isNone

/-- H registers no command can tell apart: what an empty slot holds is not observable (R26). -/
def History.Alike (h k : History) : Prop := h.valid = k.valid ∧ (h.valid = true → h = k)

/-- T registers no command can tell apart (R30). -/
def Telegram.Alike (t u : Telegram) : Prop := t.valid = u.valid ∧ (t.valid = true → t = u)

/-- States that differ at most in what empty registers hold (R26, R30, R39). -/
structure State.Alike (s t : State) : Prop where
  history : s.H.Alike t.H
  telegram : s.T.Alike t.T
  res : s.res = t.res
  inputs : s.inputs = t.inputs
  params : s.params = t.params

/-- The same kind of outcome, with the same reason or with alike next states. -/
def OutcomesAlike : Host.Outcome State Fault Refusal → Host.Outcome State Fault Refusal → Prop
  | .next s, .next t => s.Alike t
  | .fault f, .fault g => f = g
  | .refused r, .refused q => r = q
  | _, _ => False

/-- What R105 says of every RD_* command, for the command `i` with the word `cmd`: its encoding; that it
completes while T.valid = 1, driving a RES that `value` relates to T and changing nothing else; that it
faults while T.valid = 0; and the rule's worked example, the RES for T.code = E of 42_field_extract.md. -/
def ReadsTelegramAs (i : Instr) (cmd : CmdWord) (value : Telegram → Result → Prop) (onE : Result) : Prop :=
  (∀ P p, p.cmd = cmd → decodePorts P p = .ok i) ∧
  (∀ s : State, s.T.valid = true → ∃ r, exec i s = .next { s with res := some r } ∧ value s.T r) ∧
  (∀ s : State, s.T.valid = false → exec i s = .fault (.readBeforeDecode cmd)) ∧
  (∀ s : State, s.T.valid = true → s.T.code = 0x162059850A8#64 →
    exec i s = .next { s with res := some onE })

/-- key_k, the key at step k: the start key after k steps of the shift register (R78). -/
def keyAt (gen key0 : Byte) : Nat → Byte
  | 0 => key0
  | k + 1 => lfsrStep (keyAt gen key0 k) gen

/-- The message bit step k reads: bit k mod 8 of m[n-1-floor(k/8)] (R78). -/
def stepBit (msg : List Byte) (k : Nat) : Bool := (msg.getD (msg.length - 1 - k / 8) 0#8).getLsbD (k % 8)

/-- The XOR of `key k` over every k below n whose `bit k` is 1. -/
def xorOver (n : Nat) (bit : Nat → Bool) (key : Nat → Byte) : Byte :=
  (List.range n).foldl (fun acc k => if bit k then acc ^^^ key k else acc) 0#8

/-- The XOR of two messages of one length, byte by byte (R79). -/
def xorMessages (a b : List Byte) : List Byte := List.zipWith (· ^^^ ·) a b

/-- Two codes have the same bits `hi` down to `lo`. -/
def SameBits (c d : Code) (hi lo : Nat) : Prop := ∀ i, lo ≤ i → i ≤ hi → c.getLsbD i = d.getLsbD i

/-- The host's validity test (42_field_extract.md R120): the results of RD_COMPUTED_CHECKSUM and of
RD_CHECKSUM are equal. -/
def hostChecksumValid (computed transmitted : Result) : Bool := computed == transmitted

/-- The host's degrees: the exact rational tenths / 10 (R108). -/
def hostDegrees (temperature : Result) : Rat := (temperature.toInt : Rat) / (Config.tempScale : Rat)

/-- The host's display channel: the result of RD_CHANNEL plus one (R109). -/
def hostDisplayChannel (channel : Result) : Nat := channel.toNat + 1

end Sys2Proof.Machine
end

