-- ==== Sys2Proof/Certificates/Slice0/Obligations.lean ====
section
/-!
DEFINITION. The statements for the provers, from the numbered rules of spec/. A statement about every state
holds for every value of the OPEN parameters, which a state carries (log 1). An equation of a whole next
state is also the frame: every field it does not name is unchanged. The block has no memory (R40) and no
program counter (R21), so there is nothing else for a frame to speak of.
-/

open Sys2Proof Sys2Proof.Machine

/-! ### Encoding -/

/-- 30_encoding.md R55 to R61: decoding the ports driven for a well-formed command gives it back, with every
operand at every value its port carries, for every value of the OPEN parameters. -/
def Obligations.DecodeOfEncodeIsIdentity : Prop :=
  ∀ (P : Params) (i : Instr), WellFormed P i = true → decodePorts P (encode i) = .ok i

/-- The other direction: what the decoder answers has the port's command word, fits its ports, and encodes
to ports that decode the same. -/
def Obligations.EncodeOfDecodeKeepsTheCommand : Prop :=
  ∀ (P : Params) (p : Ports) (i : Instr), decodePorts P p = .ok i →
    (encode i).cmd = p.cmd ∧ i.opcode = p.cmd ∧ WellFormed P i = true ∧ decodePorts P (encode i) = .ok i

/-- R61: the opcode map, all 16 command words. -/
def Obligations.OpcodeMapOfAllSixteenWords : Prop :=
  ∀ (P : Params) (p : Ports),
    (p.cmd = 0x1#4 → decodePorts P p = .ok (.digest p.opMsg p.opGen p.opKey)) ∧
    (p.cmd = 0x2#4 → ∃ proto size, decodePorts P p = .ok (.decode proto p.opCode size)) ∧
    (p.cmd = 0x8#4 → decodePorts P p = .ok .rdAddress) ∧
    (p.cmd = 0x9#4 → decodePorts P p = .ok .rdChecksum) ∧
    (p.cmd = 0xA#4 → decodePorts P p = .ok .rdChannel) ∧
    (p.cmd = 0xB#4 → decodePorts P p = .ok .rdTemperature) ∧
    (p.cmd = 0xC#4 → decodePorts P p = .ok .rdHumidity) ∧
    (p.cmd = 0xD#4 → decodePorts P p = .ok .rdBatteryOk) ∧
    (p.cmd = 0xE#4 → decodePorts P p = .ok .rdComputedChecksum) ∧
    (p.cmd = 0xF#4 → decodePorts P p = .ok .rdVerified) ∧
    (p.cmd ∈ [0x0#4, 0x3#4, 0x4#4, 0x5#4, 0x6#4, 0x7#4] →
      decodePorts P p = .error (.reservedOpcode p.cmd))

/-- R56 (last sentence) with the formats of R58 to R60: a command ignores the ports its format does not
read. -/
def Obligations.UnreadPortsDoNotMatter : Prop :=
  ∀ (P : Params) (p q : Ports), p.cmd = q.cmd →
    (p.cmd = 0x1#4 → p.opMsg = q.opMsg ∧ p.opGen = q.opGen ∧ p.opKey = q.opKey) →
    (p.cmd = 0x2#4 → p.opProto = q.opProto ∧ p.opCode = q.opCode ∧ p.opSize = q.opSize) →
    decodePorts P p = decodePorts P q

/-- R58, R59, R60: a few command words written out from the encoding tables, with their operand ports. -/
def Obligations.SampleWordsDecode : Prop :=
  (∀ P, decodePorts P { cmd := 0b0001#4, opGen := 0x31#8, opKey := 0xF4#8, opMsg := [0xB1#8, 0x02#8] } =
    .ok (.digest [0xB1#8, 0x02#8] 0x31#8 0xF4#8)) ∧
  decodePorts { protoW := 1, sizeW := 6, digestMaxLen := none }
    { cmd := 0b0010#4, opProto := 1, opCode := 0x162059850A8#64, opSize := 41 } =
    .ok (.decode 1 0x162059850A8#64 41) ∧
  (∀ P, decodePorts P { cmd := 0b1011#4 } = .ok .rdTemperature) ∧
  (∀ P, decodePorts P { cmd := 0b0101#4 } = .error (.reservedOpcode 0b0101#4))

/-! ### The step, the queue and reset -/

/-- A step runs the decoded command: when the next thing the host does is a command whose ports decode to
`i`, the step takes it off the queue and is exec of `i`. -/
def Obligations.StepRunsTheDecodedCommand : Prop :=
  ∀ (s : State) (p : Ports) (rest : List HostInput) (i : Instr),
    s.inputs = .command p :: rest → decodePorts s.params p = .ok i →
    step s = exec i { s with inputs := rest }

/-- With nothing pending the block waits (R152, last sentence). That a waiting step answers the same state is
the model's choice, log 4. -/
def Obligations.StepWaitsForACommand : Prop :=
  ∀ s : State, s.inputs = [] → step s = .next s

/-- After R51 (the state after a sequence of commands is the fold of one command's step over the sequence):
`k` steps with `k` commands pending give the fold of `runCommand`. That the pending commands are a queue the
steps take from, empty afterwards, is the model's choice, log 3; that the fold stops at the first fault or
refusal is read from R138, log 7. -/
def Obligations.CommandsFoldInIssueOrder : Prop :=
  ∀ (ps : List Ports) (s : State), s.inputs = ps.map .command →
    Host.Core.run core ps.length s = withQueue [] (serveCommands ps s)

/-- A step takes one input off the queue and never changes the parameters (00_scope.md R8: OPEN parameters
are arguments of the model; the queue is log 3). -/
def Obligations.StepKeepsParametersAndTakesOneInput : Prop :=
  ∀ s t : State, step s = .next t → t.params = s.params ∧ t.inputs = s.inputs.tail

/-- After R150: RESET empties H and T; it is the only thing that empties H; and a DECODE that follows it gets
T.verified = 0. That the inputs behind RESET stay pending is the model's choice, log 5, and that the
parameters are a field of State that RESET keeps is log 1. (What the other fields of H and T hold then is not
stated: R150 leaves it unspecified.) -/
def Obligations.ResetSignalEmptiesHistory : Prop :=
  (∀ (s : State) (rest : List HostInput), s.inputs = .reset :: rest →
    ∃ t, step s = .next t ∧ t.H.valid = false ∧ t.T.valid = false ∧ t.inputs = rest ∧ t.params = s.params ∧
      ∀ proto code size, ∃ u, exec (.decode proto code size) t = .next u ∧ u.T.verified = false) ∧
  (∀ s t : State, s.H.valid = true → step s = .next t → t.H.valid = false →
    ∃ rest, s.inputs = .reset :: rest)

/-- R25, and of R30 and R39 the values they give: after reset H.valid and T.valid are 0, for any parameters;
and while H.valid is 0 no DECODE finds a match, whatever the other fields of H hold. -/
def Obligations.ResetLeavesBothRegistersEmpty : Prop :=
  (∀ P, (State.resetOf P).H.valid = false ∧ (State.resetOf P).T.valid = false ∧
    (State.resetOf P).params = P) ∧
  (State.reset.H.valid = false ∧ State.reset.T.valid = false) ∧
  (∀ s : State, s.H.valid = false →
    ∀ proto code size, ∃ t, exec (.decode proto code size) s = .next t ∧ t.T.verified = false)

/-- The invariant holds at reset, for any parameters. It speaks of the widths of the fields reset leaves
unspecified, so it rests on log 2 there. -/
def Obligations.InvariantHoldsAtReset : Prop :=
  State.reset.Inv ∧ ∀ P, (State.resetOf P).Inv

/-- R37, R24: from every state that meets it, a step keeps the invariant that H mirrors T (with bit 0 cleared)
and that sizes and protocols fit their widths. -/
def Obligations.EveryStepKeepsTheInvariant : Prop :=
  ∀ s t : State, s.Inv → step s = .next t → t.Inv

/-- R37: in every state reachable from reset, under any parameters and whatever the host does, H.valid =
T.valid, and when both are 1 H holds T's triple with bit 0 cleared. -/
def Obligations.ReachableHistoryMirrorsTelegram : Prop :=
  ∀ (P : Params) (q : List HostInput) (k : Nat) (t : State),
    Host.Core.run core k (State.resetIssuing P q) = .next t →
    t.H.valid = t.T.valid ∧
    (t.T.valid = true → t.H.code = t.T.code &&& ~~~1#64 ∧ t.H.size = t.T.size ∧ t.H.proto = t.T.proto)

/-- R26, R30: what reset leaves unspecified is not observable. Two states that differ only in what empty
registers hold give, over any number of steps and whatever the host does, the same faults, refusals and
results. So no claim depends on the values of log 2. -/
def Obligations.UnspecifiedResetValuesAreUnobservable : Prop :=
  ∀ (k : Nat) (s t : State), s.Alike t →
    OutcomesAlike (Host.Core.run core k s) (Host.Core.run core k t)

/-! ### The checksum engine -/

/-- R77: the key's shift-register step, in numbers: with the top bit set, twice the key truncated to 8 bits
XOR the generator; otherwise twice the key. -/
def Obligations.LfsrStepShiftsAndFeedsBack : Prop :=
  ∀ key gen : Byte,
    (128 ≤ key.toNat → lfsrStep key gen = BitVec.ofNat 8 (2 * key.toNat % 256) ^^^ gen) ∧
    (key.toNat < 128 → (lfsrStep key gen).toNat = 2 * key.toNat)

/-- R79: the digest is the XOR of key_k over every step k whose message bit is 1; it is 0 when no message bit
is 1; and it is linear in the message. -/
def Obligations.DigestClosedFormAndLinear : Prop :=
  (∀ (msg : List Byte) (gen key0 : Byte),
    digest msg gen key0 = xorOver (8 * msg.length) (stepBit msg) (keyAt gen key0)) ∧
  (∀ (msg : List Byte) (gen key0 : Byte), (∀ k < 8 * msg.length, stepBit msg k = false) →
    digest msg gen key0 = 0#8) ∧
  (∀ (a b : List Byte) (gen key0 : Byte), a.length = b.length →
    digest (xorMessages a b) gen key0 = digest a gen key0 ^^^ digest b gen key0)

/-- R81: the corner cases of the digest, for every message length: the empty message, zero messages, key 0,
generator 0 (only the last byte counts), and leading zero bytes. -/
def Obligations.DigestCornerCases : Prop :=
  (∀ gen key0, digest [] gen key0 = 0#8) ∧
  (∀ n gen key0, digest (List.replicate n 0#8) gen key0 = 0#8) ∧
  (∀ msg gen, digest msg gen 0#8 = 0#8) ∧
  (∀ (msg : List Byte) (last key0 : Byte), digest (msg ++ [last]) 0#8 key0 =
    xorOver 8 (fun i => last.getLsbD i) (fun i => key0 <<< i)) ∧
  (∀ n msg gen key0, digest (List.replicate n 0#8 ++ msg) gen key0 = digest msg gen key0) ∧
  digest [0xFF#8] 0xFF#8 0xFF#8 = 0x80#8 ∧
  digest [0x01#8, 0x00#8] 0x31#8 0xF4#8 = 0x46#8 ∧ digest [0x00#8, 0x01#8] 0x31#8 0xF4#8 = 0xF4#8

/-- R118: the computed checksum is the digest of buf(c) with 0x31 and 0xF4, and the XOR of key_k over every
k in 0 to 31 with W(c)[k] = 1, W(c)[k] being bit 9 + k of the code. -/
def Obligations.ComputedChecksumClosedForm : Prop :=
  ∀ c : Code,
    tfaChecksum c =
      digest [c.extractLsb 40 33, c.extractLsb 32 25, c.extractLsb 24 17, c.extractLsb 16 9] 0x31#8 0xF4#8 ∧
    tfaChecksum c = xorOver 32 (fun k => c.getLsbD (9 + k)) (keyAt 0x31#8 0xF4#8)

/-- R80: DIGEST's encoding; that it completes for every message within DIGEST_MAX_LEN: RES is the digest of
R76 (in the closed form of R79) with its upper byte 0, and nothing else changes, H and T least of all; that
it is refused beyond; and the rule's example. -/
def Obligations.DigestDrivesTheDigest : Prop :=
  (∀ (P : Params) (p : Ports), p.cmd = 0x1#4 → decodePorts P p = .ok (.digest p.opMsg p.opGen p.opKey)) ∧
  (∀ (s : State) (msg : List Byte) (gen key0 : Byte),
    (∀ bound, s.params.digestMaxLen = some bound → msg.length ≤ bound) →
    exec (.digest msg gen key0) s =
      .next { s with res := some (0x00#8 ++ xorOver (8 * msg.length) (stepBit msg) (keyAt gen key0)) }) ∧
  (∀ (s : State) (msg : List Byte) (gen key0 : Byte) (bound : Nat),
    s.params.digestMaxLen = some bound → bound < msg.length →
    exec (.digest msg gen key0) s = .refused (.messageTooLong msg.length)) ∧
  (∀ s : State, (∀ bound, s.params.digestMaxLen = some bound → 1 ≤ bound) →
    exec (.digest [0x02#8] 0x31#8 0x80#8) s = .next { s with res := some 0x0031#16 })

/-- R133: a DIGEST longer than DIGEST_MAX_LEN is refused with OP_LEN; in a run the state is unchanged and no
result is driven; an unbounded block never refuses one. -/
def Obligations.OverlongDigestIsRefused : Prop :=
  (∀ (s : State) (msg : List Byte) (gen key : Byte) (bound : Nat),
    s.params.digestMaxLen = some bound → bound < msg.length →
    exec (.digest msg gen key) s = .refused (.messageTooLong msg.length)) ∧
  (∀ (r : Run) (p : Ports) (bound : Nat), p.cmd = 0x1#4 →
    r.state.params.digestMaxLen = some bound → bound < p.opLen →
    (r.feed p).state = r.state ∧ (r.feed p).results = r.results ++ [none] ∧ (r.feed p).good = false) ∧
  (∀ (s : State) (msg : List Byte) (gen key : Byte), s.params.digestMaxLen = none →
    ∃ t, exec (.digest msg gen key) s = .next t)

/-! ### DECODE and duplicate detection -/

/-- R90, R91, R93, R94, R95: DECODE's encoding; that it completes in every state for every operand; the whole
next state: T takes the telegram as given, H the triple with bit 0 (and only bit 0) cleared, T.verified the
match against H as it stood before, RES not driven, nothing else changed; and the rule's example. -/
def Obligations.DecodeLatchesAndChecksHistory : Prop :=
  (∀ (P : Params) (p : Ports), p.cmd = 0x2#4 → p.opProto < 2 ^ P.protoW → p.opSize < 2 ^ P.sizeW →
    decodePorts P p = .ok (.decode p.opProto p.opCode p.opSize)) ∧
  (∀ (s : State) (p : Nat) (c : Code) (z : Nat), ∃ (hcode : Code) (verified : Bool),
    exec (.decode p c z) s = .next { s with
      T := { valid := true, code := c, size := z, proto := p, verified := verified }
      H := { valid := true, code := hcode, size := z, proto := p }
      res := none } ∧
    (∀ i, hcode.getLsbD i = (decide (i ≠ 0) && c.getLsbD i)) ∧
    (verified = true ↔ s.H.valid = true ∧ s.H.code = hcode ∧ s.H.size = z ∧ s.H.proto = p)) ∧
  (∀ P, ∃ t u, exec (.decode 1 0x162059850A8#64 41) (State.resetOf P) = .next t ∧
    exec (.decode 1 0x162059850A9#64 41) t = .next u ∧ u.T.verified = true)

/-- R92: what the comparison of two DECODEs in a row covers: bits 63 to 1 of the code, bits 63 to 41 among
them, the whole size and the whole protocol; never bit 0. -/
def Obligations.MatchCoversAllButBitZero : Prop :=
  ∀ (s t u : State) (p₁ p₂ z₁ z₂ : Nat) (c₁ c₂ : Code),
    exec (.decode p₁ c₁ z₁) s = .next t → exec (.decode p₂ c₂ z₂) t = .next u →
    (u.T.verified = true ↔ SameBits c₁ c₂ 63 1 ∧ z₁ = z₂ ∧ p₁ = p₂)

/-- R98: codes that differ at most in bit 0, in any order, are verified on the second DECODE; with another
protocol or another size the second is not. -/
def Obligations.BitZeroDoesNotMatter : Prop :=
  ∀ (s : State) (p p' z z' : Nat) (X c d : Code),
    (c = X ∨ c = X ||| 1#64) → (d = X ∨ d = X ||| 1#64) →
    ∃ t, exec (.decode p c z) s = .next t ∧
      (∃ u, exec (.decode p d z) t = .next u ∧ u.T.verified = true) ∧
      (p' ≠ p ∨ z' ≠ z → ∃ u, exec (.decode p' d z') t = .next u ∧ u.T.verified = false)

/-- R97: the first DECODE after reset gives T.verified = 0, whatever other commands come before it. -/
def Obligations.FirstDecodeIsNeverVerified : Prop :=
  ∀ (P : Params) (is : List Instr) (t : State), (∀ i ∈ is, i.isDecode = false) →
    runInstrs is (State.resetOf P) = .next t →
    ∀ p c z, ∃ u, exec (.decode p c z) t = .next u ∧ u.T.verified = false

/-- R96: DIGEST and the RD_* commands do not read H (whatever H holds, they do the same), and any number of
them leaves H and T as they were, and so leaves the next DECODE's match unchanged. -/
def Obligations.OnlyDecodeTouchesHistory : Prop :=
  (∀ (i : Instr) (s t : State) (h : History), i.isDecode = false → exec i s = .next t →
    exec i { s with H := h } = .next { t with H := h }) ∧
  ∀ (is : List Instr) (s t : State), (∀ i ∈ is, i.isDecode = false) → runInstrs is s = .next t →
    t.H = s.H ∧ t.T = s.T ∧
    ∀ p c z, ∃ u v, exec (.decode p c z) s = .next u ∧ exec (.decode p c z) t = .next v ∧
      v.T.verified = u.T.verified

/-- R99: a DECODE whose transmitted checksum is wrong still overwrites H, and a later identical DECODE still
gets T.verified = 1. -/
def Obligations.VerificationIgnoresTheChecksum : Prop :=
  ∀ (s : State) (p : Nat) (c : Code) (z : Nat), extChecksum c ≠ tfaChecksum c →
    ∃ t u, exec (.decode p c z) s = .next t ∧
      t.H = { valid := true, code := c &&& ~~~1#64, size := z, proto := p } ∧
      exec (.decode p c z) t = .next u ∧ u.T.verified = true

/-- R100: the window is exactly one DECODE. After A, a C whose code does not match, and a D equal to A, D is not
verified. A run of k ≥ 2 DECODEs identical up to bit 0, the one before which did not match the first, gives 0
for the first and 1 for each of the others. -/
def Obligations.WindowIsExactlyOneDecode : Prop :=
  (∀ (s : State) (p p' z z' : Nat) (a c : Code), ¬ SameBits c a 63 1 →
    ∃ t, runInstrs [.decode p a z, .decode p' c z', .decode p a z] s = .next t ∧ t.T.verified = false) ∧
  (∀ (s t : State) (p p' z z' : Nat) (b X : Code) (codes : List Code),
    exec (.decode p' b z') s = .next t → ¬ (SameBits b X 63 1 ∧ z' = z ∧ p' = p) →
    codes ≠ [] → (∀ c ∈ codes, SameBits c X 63 1) →
    ∃ u, runInstrs (codes.map (fun c => .decode p c z)) t = .next u ∧
      (u.T.verified = true ↔ 2 ≤ codes.length))

/-- R71: no operand value is checked: DECODE accepts every (protocol, code, size) and DIGEST every (generator,
key, message) within DIGEST_MAX_LEN. -/
def Obligations.EveryOperandValueIsAccepted : Prop :=
  (∀ (s : State) (p : Ports), p.cmd = 0x2#4 → ∃ t, runCommand p s = .next t) ∧
  (∀ (s : State) (p : Ports), p.cmd = 0x1#4 →
    (∀ bound, s.params.digestMaxLen = some bound → p.opLen ≤ bound) → ∃ t, runCommand p s = .next t)

/-! ### The field reads -/

/-- R110: RD_ADDRESS reads c[40:33]. -/
def Obligations.RdAddressReadsBits40To33 : Prop :=
  ReadsTelegramAs .rdAddress 0x8#4 (fun t r => r.toNat = t.code.toNat / 2 ^ 33 % 2 ^ 8) 0x00B1#16

/-- R111: RD_CHECKSUM reads c[8:1]; bit 0 is not part of it. -/
def Obligations.RdChecksumReadsBits8To1 : Prop :=
  ReadsTelegramAs .rdChecksum 0x9#4 (fun t r => r.toNat = t.code.toNat / 2 ^ 1 % 2 ^ 8) 0x0054#16 ∧
  ∀ c : Code, extChecksum (c ||| 1#64) = extChecksum c

/-- R112: RD_CHANNEL reads c[30:29], a value of 0 to 3. -/
def Obligations.RdChannelReadsBits30To29 : Prop :=
  ReadsTelegramAs .rdChannel 0xA#4
    (fun t r => r.toNat = t.code.toNat / 2 ^ 29 % 2 ^ 2 ∧ r.toNat ≤ 3) 0x0000#16

/-- R113, R116: RD_TEMPERATURE reads c[28:17] as an unsigned 12-bit value and drives the exact signed integer
raw - 500, which lies in -500 to 3595. -/
def Obligations.RdTemperatureReadsTenths : Prop :=
  ReadsTelegramAs .rdTemperature 0xB#4
    (fun t r => r.toInt = ((t.code.toNat / 2 ^ 17 % 2 ^ 12 : Nat) : Int) - 500 ∧
      -500 ≤ r.toInt ∧ r.toInt ≤ 3595) 0x00D8#16

/-- R116: the 13-bit subtraction never wraps, and sign extension to 16 bits keeps the exact integer. -/
def Obligations.TemperatureSubtractionIsExact : Prop :=
  ∀ c : Code,
    (extTempTenths c).toInt = ((extTempRaw c).toNat : Int) - 500 ∧
    (packSigned (extTempTenths c)).toInt = ((extTempRaw c).toNat : Int) - 500 ∧
    (extTempRaw c).toNat ≤ 4095 ∧
    -500 ≤ (extTempTenths c).toInt ∧ (extTempTenths c).toInt ≤ 3595

/-- R114, R109: RD_HUMIDITY reads c[16:9]; values above 100 are returned as they are. -/
def Obligations.RdHumidityReadsBits16To9 : Prop :=
  ReadsTelegramAs .rdHumidity 0xC#4 (fun t r => r.toNat = t.code.toNat / 2 ^ 9 % 2 ^ 8) 0x0028#16

/-- R115: RD_BATTERY_OK reads c[32] inverted: stored 0 gives 1 (OK), stored 1 gives 0 (LOW). -/
def Obligations.RdBatteryOkInvertsBit32 : Prop :=
  ReadsTelegramAs .rdBatteryOk 0xD#4
    (fun t r => (t.code.toNat / 2 ^ 32 % 2 = 0 → r.toNat = 1) ∧ (t.code.toNat / 2 ^ 32 % 2 = 1 → r.toNat = 0))
    0x0001#16

/-- R119: RD_COMPUTED_CHECKSUM drives the checksum of R118 computed from T.code; bits 8 to 0 and 63 to 41 do
not affect it; with bits 40 to 9 all 0 it is 0, with all 1 it is 0x8E. -/
def Obligations.RdComputedChecksumDrivesR118 : Prop :=
  ReadsTelegramAs .rdComputedChecksum 0xE#4
    (fun t r => r = 0x00#8 ++ xorOver 32 (fun k => t.code.getLsbD (9 + k)) (keyAt 0x31#8 0xF4#8))
    0x0054#16 ∧
  (∀ c d : Code, SameBits c d 40 9 → tfaChecksum c = tfaChecksum d) ∧
  (∀ c : Code, SameBits c 0#64 40 9 → tfaChecksum c = 0x00#8) ∧
  (∀ c : Code, SameBits c (BitVec.allOnes 64) 40 9 → tfaChecksum c = 0x8E#8)

/-- R121: RD_VERIFIED drives T.verified, 0 or 1, and touches nothing else; it gives the same value after any
number of commands that are not DECODE; after reset, DECODE 1, E, 41 and RD_VERIFIED give 0. -/
def Obligations.RdVerifiedDrivesTheFlag : Prop :=
  (∀ P p, p.cmd = 0xF#4 → decodePorts P p = .ok .rdVerified) ∧
  (∀ s : State, s.T.valid = true →
    exec .rdVerified s = .next { s with res := some (if s.T.verified then 1#16 else 0#16) }) ∧
  (∀ s : State, s.T.valid = false → exec .rdVerified s = .fault (.readBeforeDecode 0xF#4)) ∧
  (∀ (is : List Instr) (s t : State), (∀ i ∈ is, i.isDecode = false) → runInstrs is s = .next t →
    s.T.valid = true →
    exec .rdVerified t = .next { t with res := some (if s.T.verified then 1#16 else 0#16) }) ∧
  (∀ P, ∃ t, runInstrs [.decode 1 0x162059850A8#64 41, .rdVerified] (State.resetOf P) = .next t ∧
    t.res = some 0x0000#16)

/-- R105, R132: every RD_* command with T.valid = 1 completes, writing RES alone; with T.valid = 0 it faults
with its command word, and a run then keeps its state and drives no result. -/
def Obligations.ReadsNeedADecodedTelegram : Prop :=
  ∀ i : Instr, i.isRead = true →
    (∀ s : State, s.T.valid = true → ∃ r, exec i s = .next { s with res := some r }) ∧
    (∀ s : State, s.T.valid = false → exec i s = .fault (.readBeforeDecode i.opcode)) ∧
    (∀ (r : Run) (p : Ports), p.cmd = i.opcode → r.state.T.valid = false →
      (r.feed p).state = r.state ∧ (r.feed p).results = r.results ++ [none] ∧ (r.feed p).good = false)

/-- R63: the fields tile bits 40 to 1 of the code, in the order of R62, with no gap and no overlap. -/
def Obligations.FieldsTileBits40To1 : Prop :=
  ∀ c : Code,
    (c.extractLsb 40 1 : BitVec 40) =
      extAddress c ++ (BitVec.ofBool (extBattery c) ++ (BitVec.ofBool (extSendMode c) ++ (extChannel c ++
        (extTempRaw c ++ (extHumidity c ++ extChecksum c)))))

/-- R122, R106, R107: changing bits outside a field's own changes no value of that field. -/
def Obligations.FieldsReadOnlyTheirOwnBits : Prop :=
  ∀ c d : Code,
    (SameBits c d 8 1 → extChecksum c = extChecksum d) ∧
    (SameBits c d 16 9 → extHumidity c = extHumidity d) ∧
    (SameBits c d 28 17 → extTempRaw c = extTempRaw d ∧ extTempTenths c = extTempTenths d) ∧
    (SameBits c d 30 29 → extChannel c = extChannel d) ∧
    (SameBits c d 31 31 → extSendMode c = extSendMode d) ∧
    (SameBits c d 32 32 → extBatteryOk c = extBatteryOk d) ∧
    (SameBits c d 40 33 → extAddress c = extAddress d)

/-- R120: the host's validity test on the results of RD_COMPUTED_CHECKSUM and RD_CHECKSUM says whether the
computed checksum is the transmitted one. -/
def Obligations.HostValidityTestComparesChecksums : Prop :=
  ∀ s t u : State, exec .rdComputedChecksum s = .next t → exec .rdChecksum t = .next u →
    ∃ a b, t.res = some a ∧ u.res = some b ∧
      (hostChecksumValid a b = true ↔ tfaChecksum s.T.code = extChecksum s.T.code)

/-! ### Whole-machine rules -/

/-- R27, R33, R35: H and T change only in a step that serves a DECODE or the RESET signal. -/
def Obligations.RegistersChangeOnlyByDecodeOrReset : Prop :=
  ∀ s t : State, step s = .next t → t.H ≠ s.H ∨ t.T ≠ s.T →
    (∃ rest, s.inputs = .reset :: rest) ∨ (∃ p rest, s.inputs = .command p :: rest ∧ p.cmd = 0x2#4)

/-- R50: DIGEST and every RD_* command write no register and, repeated in the state they leave, give the same
result; a DECODE repeated with the same operands finds a match where the first may not: from H.valid = 0 the
first gets T.verified = 0 and the repeat 1, so DECODE is not idempotent. -/
def Obligations.ReadsRepeatAndDecodeDoesNot : Prop :=
  (∀ (i : Instr) (s t : State), i.isDecode = false → exec i s = .next t →
    (∃ r, t = { s with res := some r }) ∧ exec i t = .next t) ∧
  (∀ (s t : State) (p : Nat) (c : Code) (z : Nat), exec (.decode p c z) s = .next t →
    ∃ u, exec (.decode p c z) t = .next u ∧ u.T.verified = true) ∧
  (∀ (s : State) (p : Nat) (c : Code) (z : Nat), s.H.valid = false →
    ∃ t u, exec (.decode p c z) s = .next t ∧ t.T.verified = false ∧
      exec (.decode p c z) t = .next u ∧ u.T.verified = true ∧ u ≠ t)

/-- R36, R32: DIGEST and the RD_* commands cannot tell apart two states with the same parameters, T.valid,
T.code and T.verified: what H, T.size and T.proto hold reaches no result and no fault. -/
def Obligations.ResultsDoNotDependOnHistory : Prop :=
  ∀ (i : Instr) (s t : State), i.isDecode = false → s.params = t.params → s.T.valid = t.T.valid →
    s.T.code = t.T.code → s.T.verified = t.T.verified →
    (∃ u v, exec i s = .next u ∧ exec i t = .next v ∧ u.res = v.res) ∨
    (∃ f, exec i s = .fault f ∧ exec i t = .fault f) ∨
    (∃ r, exec i s = .refused r ∧ exec i t = .refused r)

/-- R134, R136: the complete list of outcomes other than a normal step, each exactly when the table says, with
the information it records. -/
def Obligations.OutcomesAreTheCompleteList : Prop :=
  ∀ (p : Ports) (s : State),
    (p.cmd ∈ [0x0#4, 0x3#4, 0x4#4, 0x5#4, 0x6#4, 0x7#4] ∧
      runCommand p s = .refused (.reservedOpcode p.cmd)) ∨
    (p.cmd = 0x1#4 ∧ (∃ bound, s.params.digestMaxLen = some bound ∧ bound < p.opLen) ∧
      runCommand p s = .refused (.messageTooLong p.opLen)) ∨
    (0x8#4 ≤ p.cmd ∧ s.T.valid = false ∧ runCommand p s = .fault (.readBeforeDecode p.cmd)) ∨
    ((p.cmd = 0x1#4 ∧ (∀ bound, s.params.digestMaxLen = some bound → p.opLen ≤ bound) ∨ p.cmd = 0x2#4 ∨
      (0x8#4 ≤ p.cmd ∧ s.T.valid = true)) ∧ ∃ t, runCommand p s = .next t)

/-- R131, R64: a reserved command word is refused in a step; in a run the state is unchanged and no result is
driven. -/
def Obligations.ReservedWordsAreRefused : Prop :=
  ∀ p : Ports, p.cmd ∈ [0x0#4, 0x3#4, 0x4#4, 0x5#4, 0x6#4, 0x7#4] →
    (∀ (s : State) (rest : List HostInput), s.inputs = .command p :: rest →
      step s = .refused (.reservedOpcode p.cmd)) ∧
    (∀ r : Run, (r.feed p).state = r.state ∧ (r.feed p).results = r.results ++ [none] ∧
      (r.feed p).good = false)

/-- R138: a run's fault or refusal mark is kept whatever commands come later, the block is ready for the next
command with the state unchanged, and a run is good exactly when serving its commands in order never stops. -/
def Obligations.RunMarkIsNeverCleared : Prop :=
  (∀ (r : Run) (ps : List Ports) (m : Stop), r.mark = some m → (ps.foldl Run.feed r).mark = some m) ∧
  (∀ (r : Run) (p : Ports), (∀ t, runCommand p r.state ≠ .next t) → (r.feed p).state = r.state) ∧
  (∀ (P : Params) (ps : List Ports), (ps.foldl Run.feed (Run.start P)).good = true ↔
    ∃ t, serveCommands ps (State.resetOf P) = .next t)

/-- R157: the observation of a run is the list of results, one per command: a command that completes appends
what it left on RES, which is absent for DECODE and present for every other command, and goes on from its next
state; one that does not complete appends an absent result. So the list has one entry per command, and after a
good run the state is the fold of the commands. (The record of a run that goes on past a stop is log 7, RES as
an option log 6.) -/
def Obligations.RunObservesOneResultPerCommand : Prop :=
  (∀ (r : Run) (p : Ports) (t : State), runCommand p r.state = .next t →
    (r.feed p).results = r.results ++ [t.res] ∧ (r.feed p).state = t ∧
    (p.cmd = 0x2#4 → t.res = none) ∧ (p.cmd ≠ 0x2#4 → ∃ v, t.res = some v)) ∧
  (∀ (r : Run) (p : Ports), (∀ t, runCommand p r.state ≠ .next t) →
    (r.feed p).results = r.results ++ [none]) ∧
  (∀ (P : Params) (ps : List Ports), (ps.foldl Run.feed (Run.start P)).results.length = ps.length) ∧
  (∀ (P : Params) (ps : List Ports) (t : State), serveCommands ps (State.resetOf P) = .next t →
    (ps.foldl Run.feed (Run.start P)).state = t)

/-- R8: the least the limits on the OPEN parameters admit: protocol 1 (PROTO_W ≥ 1), size 41 (SIZE_W ≥ 6), and
DIGEST messages of up to 4 bytes (DIGEST_MAX_LEN ≥ 4). A wider protocol or a longer message needs larger
parameters. -/
def Obligations.LimitsAdmitProtocolOneSizeFortyOneFourBytes : Prop :=
  ∀ s : State, s.params.wf = true →
    (∀ c : Code, WellFormed s.params (.decode 1 c 41) = true) ∧
    (∀ (msg : List Byte) (gen key : Byte), msg.length ≤ 4 →
      exec (.digest msg gen key) s = .next { s with res := some (packUnsigned (digest msg gen key)) })
end

