-- ==== Sys2Proof/Laws/State.lean ====
section
/-!
SUPPORT. One lemma per field for each named update of the state.
-/
namespace Sys2Proof.Machine

variable (s : State)

@[simp] theorem driveRes_H (r : Result) : (s.driveRes r).H = s.H := rfl
@[simp] theorem driveRes_T (r : Result) : (s.driveRes r).T = s.T := rfl
@[simp] theorem driveRes_res (r : Result) : (s.driveRes r).res = some r := rfl
@[simp] theorem driveRes_inputs (r : Result) : (s.driveRes r).inputs = s.inputs := rfl
@[simp] theorem driveRes_params (r : Result) : (s.driveRes r).params = s.params := rfl

/-- Driving RES twice is driving it once. -/
@[simp] theorem driveRes_driveRes (r q : Result) : (s.driveRes r).driveRes q = s.driveRes q := rfl

section Latch
variable (proto : Nat) (code : Code) (size : Nat) (v : Bool)

@[simp] theorem latchTelegram_H : (s.latchTelegram proto code size v).H =
    { valid := true, code := clearToggle code, size := size, proto := proto } := rfl
@[simp] theorem latchTelegram_T : (s.latchTelegram proto code size v).T =
    { valid := true, code := code, size := size, proto := proto, verified := v } := rfl
@[simp] theorem latchTelegram_res : (s.latchTelegram proto code size v).res = none := rfl
@[simp] theorem latchTelegram_inputs : (s.latchTelegram proto code size v).inputs = s.inputs := rfl
@[simp] theorem latchTelegram_params : (s.latchTelegram proto code size v).params = s.params := rfl

end Latch

@[simp] theorem resetOf_H_valid (P : Params) : (State.resetOf P).H.valid = false := rfl
@[simp] theorem resetOf_T_valid (P : Params) : (State.resetOf P).T.valid = false := rfl
@[simp] theorem resetOf_res (P : Params) : (State.resetOf P).res = none := rfl
@[simp] theorem resetOf_inputs (P : Params) : (State.resetOf P).inputs = [] := rfl
@[simp] theorem resetOf_params (P : Params) : (State.resetOf P).params = P := rfl

@[simp] theorem resetSignal_H : s.resetSignal.H = (State.resetOf s.params).H := rfl
@[simp] theorem resetSignal_T : s.resetSignal.T = (State.resetOf s.params).T := rfl
@[simp] theorem resetSignal_res : s.resetSignal.res = none := rfl
@[simp] theorem resetSignal_inputs : s.resetSignal.inputs = s.inputs := rfl
@[simp] theorem resetSignal_params : s.resetSignal.params = s.params := rfl

@[simp] theorem resetIssuing_H (P : Params) (q : List HostInput) :
    (State.resetIssuing P q).H = (State.resetOf P).H := rfl
@[simp] theorem resetIssuing_T (P : Params) (q : List HostInput) :
    (State.resetIssuing P q).T = (State.resetOf P).T := rfl
@[simp] theorem resetIssuing_inputs (P : Params) (q : List HostInput) :
    (State.resetIssuing P q).inputs = q := rfl
@[simp] theorem resetIssuing_params (P : Params) (q : List HostInput) :
    (State.resetIssuing P q).params = P := rfl

@[simp] theorem withFetchWord_inputs (nbits w : Nat) :
    (s.withFetchWord nbits w).inputs = .command (Ports.ofTableWord nbits w) :: s.inputs := rfl
@[simp] theorem withFetchWord_params (nbits w : Nat) : (s.withFetchWord nbits w).params = s.params := rfl

end Sys2Proof.Machine
end

