-- ==== Sys2Proof/Laws/Meanings.lean ====
section
/-!
SUPPORT. What each shared operation, each meaning and the step can do, said once: the lemmas that later
proofs cite in place of unfolding.
-/
namespace Sys2Proof.Machine

variable {s t : State}

/-- Every way a read can end (R105). -/
theorem readTelegram_cases (cmd : CmdWord) (value : Telegram → Result) (s : State) :
    (s.T.valid = true ∧ readTelegram cmd value s = .next (s.driveRes (value s.T))) ∨
    (s.T.valid = false ∧ readTelegram cmd value s = .fault (.readBeforeDecode cmd)) := by
  cases h : s.T.valid <;> simp [readTelegram, h]

theorem readTelegram_of_valid (cmd : CmdWord) (value : Telegram → Result) (h : s.T.valid = true) :
    readTelegram cmd value s = .next (s.driveRes (value s.T)) := by simp [readTelegram, h]

theorem readTelegram_of_empty (cmd : CmdWord) (value : Telegram → Result) (h : s.T.valid = false) :
    readTelegram cmd value s = .fault (.readBeforeDecode cmd) := by simp [readTelegram, h]

/-- The value each RD_* command packs from T; `none` for DIGEST and DECODE. -/
def readValue : Instr → Option (Telegram → Result)
  | .digest _ _ _ => none
  | .decode _ _ _ => none
  | .rdAddress => some fun t => packUnsigned (extAddress t.code)
  | .rdChecksum => some fun t => packUnsigned (extChecksum t.code)
  | .rdChannel => some fun t => packUnsigned (extChannel t.code)
  | .rdTemperature => some fun t => packSigned (extTempTenths t.code)
  | .rdHumidity => some fun t => packUnsigned (extHumidity t.code)
  | .rdBatteryOk => some fun t => packBool (extBatteryOk t.code)
  | .rdComputedChecksum => some fun t => packUnsigned (tfaChecksum t.code)
  | .rdVerified => some fun t => packBool t.verified

/-- Every RD_* command is one shared read of T. -/
theorem exec_of_readValue {i : Instr} {v : Telegram → Result} (h : readValue i = some v) (s : State) :
    exec i s = readTelegram i.opcode v s := by
  cases i <;> simp only [readValue, Option.some.injEq, reduceCtorEq] at h <;> subst h <;> rfl

theorem readValue_of_isRead {i : Instr} (h : i.isRead = true) : ∃ v, readValue i = some v := by
  cases i <;> simp_all [Instr.isRead, readValue]

/-- Every way a command can end (R134): DIGEST within or beyond the bound, DECODE, a read of a full or of an
empty T. -/
theorem exec_cases (i : Instr) (s : State) :
    (∃ msg gen key, i = .digest msg gen key ∧ exceedsMaxLen s.params msg.length = false ∧
      exec i s = .next (s.driveRes (packUnsigned (digest msg gen key)))) ∨
    (∃ msg gen key, i = .digest msg gen key ∧ exceedsMaxLen s.params msg.length = true ∧
      exec i s = .refused (.messageTooLong msg.length)) ∨
    (∃ proto code size, i = .decode proto code size ∧
      exec i s = .next (s.latchTelegram proto code size (duplicateMatch s.H proto code size))) ∨
    (∃ v, readValue i = some v ∧ s.T.valid = true ∧ exec i s = .next (s.driveRes (v s.T))) ∨
    (∃ v, readValue i = some v ∧ s.T.valid = false ∧ exec i s = .fault (.readBeforeDecode i.opcode)) := by
  cases hi : readValue i with
  | some v =>
    rw [exec_of_readValue hi]
    rcases readTelegram_cases i.opcode v s with ⟨hv, he⟩ | ⟨hv, he⟩
    · exact .inr (.inr (.inr (.inl ⟨v, rfl, hv, he⟩)))
    · exact .inr (.inr (.inr (.inr ⟨v, rfl, hv, he⟩)))
  | none =>
    cases i <;> simp only [readValue, reduceCtorEq] at hi
    case digest msg gen key =>
      cases h : exceedsMaxLen s.params msg.length
      · exact .inl ⟨msg, gen, key, rfl, h, by simp [exec, execDigest, h]⟩
      · exact .inr (.inl ⟨msg, gen, key, rfl, h, by simp [exec, execDigest, h]⟩)
    case decode proto code size => exact .inr (.inr (.inl ⟨proto, code, size, rfl, rfl⟩))

/-- A command that completes either is DECODE or drives RES and changes nothing else. -/
theorem exec_next_cases {i : Instr} (h : exec i s = .next t) :
    (∃ r, i.isDecode = false ∧ t = s.driveRes r) ∨
    (∃ proto code size, i = .decode proto code size ∧
      t = s.latchTelegram proto code size (duplicateMatch s.H proto code size)) := by
  have key : ∀ {i : Instr} {v}, readValue i = some v → i.isDecode = false := by
    intro i v hv; cases i <;> simp_all [readValue, Instr.isDecode]
  rcases exec_cases i s with ⟨m, g, k, rfl, -, he⟩ | ⟨m, g, k, rfl, -, he⟩ | ⟨p, c, z, rfl, he⟩ |
    ⟨v, hv, -, he⟩ | ⟨v, hv, -, he⟩ <;> rw [he] at h <;> simp only [Host.Outcome.next.injEq, reduceCtorEq] at h
  · exact .inl ⟨_, rfl, h.symm⟩
  · exact .inr ⟨p, c, z, rfl, h.symm⟩
  · exact .inl ⟨_, key hv, h.symm⟩

/-- A completed command changes neither the parameters nor the pending inputs. -/
theorem exec_frame {i : Instr} (h : exec i s = .next t) : t.params = s.params ∧ t.inputs = s.inputs := by
  rcases exec_next_cases h with ⟨r, -, rfl⟩ | ⟨p, c, z, -, rfl⟩ <;> exact ⟨rfl, rfl⟩

/-- Replacing the pending inputs commutes with running a command. -/
theorem exec_withInputs (i : Instr) (s : State) (q : List HostInput) :
    exec i { s with inputs := q } = withQueue q (exec i s) := by
  cases i <;> simp only [exec, execDigest, execDecode, execRdAddress, execRdChecksum, execRdChannel,
    execRdTemperature, execRdHumidity, execRdBatteryOk, execRdComputedChecksum, execRdVerified,
    readTelegram] <;> first | rfl | (split <;> rfl)

/-- Every way serving a command can end: its word is rejected, or its command runs. -/
theorem runCommand_cases (p : Ports) (s : State) :
    (∃ i, decodePorts s.params p = .ok i ∧ runCommand p s = exec i s) ∨
    (∃ e, decodePorts s.params p = .error e ∧ runCommand p s = .refused (refusalOf e)) := by
  cases h : decodePorts s.params p with
  | ok i => exact .inl ⟨i, rfl, by simp [runCommand, h]⟩
  | error e => exact .inr ⟨e, rfl, by simp [runCommand, h]⟩

/-- Every way a step can end. -/
theorem step_cases (s : State) :
    (s.inputs = [] ∧ step s = .next s) ∨
    (∃ rest, s.inputs = .reset :: rest ∧ step s = .next (State.resetSignal { s with inputs := rest })) ∨
    (∃ p rest, s.inputs = .command p :: rest ∧ step s = runCommand p { s with inputs := rest }) := by
  cases h : s.inputs with
  | nil => exact .inl ⟨rfl, by simp [step, h]⟩
  | cons e rest =>
    cases e with
    | reset => exact .inr (.inl ⟨rest, rfl, by simp [step, serve, h]⟩)
    | command p => exact .inr (.inr ⟨p, rest, rfl, by simp [step, serve, h]⟩)

/-- `runCommand` commutes with replacing the pending inputs. -/
theorem runCommand_withInputs (p : Ports) (s : State) (q : List HostInput) :
    runCommand p { s with inputs := q } = withQueue q (runCommand p s) := by
  rcases runCommand_cases p s with ⟨i, hd, hr⟩ | ⟨e, hd, hr⟩ <;> rw [hr]
  · rw [← exec_withInputs]; simp [runCommand, hd]
  · simp [runCommand, hd, withQueue]

@[simp] theorem run_zero (s : State) : Host.Core.run core 0 s = .next s := rfl

theorem run_succ_of_next {s t : State} (k : Nat) (h : step s = .next t) :
    Host.Core.run core (k + 1) s = Host.Core.run core k t := by
  have h' : Host.Core.step core s = .next t := h
  simp only [Host.Core.run, h']

theorem run_succ_of_fault {s : State} {f : Fault} (k : Nat) (h : step s = .fault f) :
    Host.Core.run core (k + 1) s = .fault f := by
  have h' : Host.Core.step core s = .fault f := h
  simp only [Host.Core.run, h']

theorem run_succ_of_refused {s : State} {r : Refusal} (k : Nat) (h : step s = .refused r) :
    Host.Core.run core (k + 1) s = .refused r := by
  have h' : Host.Core.step core s = .refused r := h
  simp only [Host.Core.run, h']

/-- A property that every step keeps holds after any number of steps. -/
theorem run_keeps {Q : State → Prop} (keeps : ∀ s t, Q s → step s = .next t → Q t) :
    ∀ (k : Nat) (s t : State), Q s → Host.Core.run core k s = .next t → Q t := by
  intro k
  induction k with
  | zero => intro s t hs h; cases h; exact hs
  | succ k ih =>
    intro s t hs h
    cases hst : step s with
    | next u => rw [run_succ_of_next k hst] at h; exact ih u t (keeps s u hs hst) h
    | fault f => rw [run_succ_of_fault k hst] at h; cases h
    | refused r => rw [run_succ_of_refused k hst] at h; cases h

end Sys2Proof.Machine
end

