-- ==== Sys2Proof/Laws/Encoding.lean ====
section
/-!
SUPPORT. What the decoder answers, said once (30_encoding.md R61, R64).
-/
namespace Sys2Proof

/-- A number that fits the wires is carried whole. -/
theorem onWires_of_lt {w n : Nat} (h : n < 2 ^ w) : onWires w n = n := Nat.mod_eq_of_lt h

theorem onWires_lt (w n : Nat) : onWires w n < 2 ^ w := Nat.mod_lt _ (Nat.two_pow_pos w)

/-- Every way decoding can end: one line of the opcode map of R61, or a reserved word. -/
theorem decodePorts_cases (P : Params) (p : Ports) :
    (p.cmd = 0x1#4 ∧ decodePorts P p = .ok (.digest p.opMsg p.opGen p.opKey)) ∨
    (p.cmd = 0x2#4 ∧ decodePorts P p =
      .ok (.decode (onWires P.protoW p.opProto) p.opCode (onWires P.sizeW p.opSize))) ∨
    (∃ i, i.isRead = true ∧ p.cmd = i.opcode ∧ decodePorts P p = .ok i) ∨
    (p.cmd ∈ [0x0#4, 0x3#4, 0x4#4, 0x5#4, 0x6#4, 0x7#4] ∧
      decodePorts P p = .error (.reservedOpcode p.cmd)) := by
  have read : ∀ i : Instr, i.isRead = true → p.cmd = i.opcode → decodePorts P p = .ok i := by
    intro i hr hc
    cases i <;> simp_all [Instr.isRead, decodePorts, Instr.opcode]
  have all : ∀ c : CmdWord, c = 0x1#4 ∨ c = 0x2#4 ∨
      (c = 0x8#4 ∨ c = 0x9#4 ∨ c = 0xA#4 ∨ c = 0xB#4 ∨ c = 0xC#4 ∨ c = 0xD#4 ∨ c = 0xE#4 ∨ c = 0xF#4) ∨
      c ∈ [0x0#4, 0x3#4, 0x4#4, 0x5#4, 0x6#4, 0x7#4] := by decide
  rcases all p.cmd with h | h | h | h
  · exact .inl ⟨h, by simp [decodePorts, h]⟩
  · exact .inr (.inl ⟨h, by simp [decodePorts, h]⟩)
  · refine .inr (.inr (.inl ?_))
    rcases h with h | h | h | h | h | h | h | h
    · exact ⟨.rdAddress, rfl, h, read _ rfl h⟩
    · exact ⟨.rdChecksum, rfl, h, read _ rfl h⟩
    · exact ⟨.rdChannel, rfl, h, read _ rfl h⟩
    · exact ⟨.rdTemperature, rfl, h, read _ rfl h⟩
    · exact ⟨.rdHumidity, rfl, h, read _ rfl h⟩
    · exact ⟨.rdBatteryOk, rfl, h, read _ rfl h⟩
    · exact ⟨.rdComputedChecksum, rfl, h, read _ rfl h⟩
    · exact ⟨.rdVerified, rfl, h, read _ rfl h⟩
  · refine .inr (.inr (.inr ⟨h, ?_⟩))
    simp only [List.mem_cons, List.not_mem_nil, or_false] at h
    rcases h with h | h | h | h | h | h <;> simp [decodePorts, h]

theorem encode_cmd (i : Instr) : (encode i).cmd = i.opcode := by cases i <;> rfl

/-- What the decoder answers is well formed: the wires carry no wider operand. -/
theorem decodePorts_wellFormed {P : Params} {p : Ports} {i : Instr} (h : decodePorts P p = .ok i) :
    WellFormed P i = true := by
  rcases decodePorts_cases P p with ⟨-, he⟩ | ⟨-, he⟩ | ⟨j, hr, -, he⟩ | ⟨-, he⟩ <;> rw [he] at h <;>
    simp only [Except.ok.injEq, reduceCtorEq] at h <;> subst h
  · rfl
  · simp [WellFormed, onWires_lt]
  · cases j <;> simp_all [Instr.isRead, WellFormed]

end Sys2Proof
end

