-- ==== Sys2Proof/Laws/Engine.lean ====
section
/-!
SUPPORT. The checksum engine's registers after a byte and after a message (40_checksum_engine.md R76, R78).
-/
namespace Sys2Proof.Machine

/-- The key after `b` more steps (R78). -/
theorem keyAt_add (gen key0 : Byte) (a b : Nat) : keyAt gen (keyAt gen key0 a) b = keyAt gen key0 (a + b) := by
  induction b with
  | zero => rfl
  | succ b ih => rw [keyAt, ih]; rfl

@[simp] theorem xorOver_zero (bit : Nat → Bool) (key : Nat → Byte) : xorOver 0 bit key = 0#8 := rfl

theorem xorOver_succ (n : Nat) (bit : Nat → Bool) (key : Nat → Byte) :
    xorOver (n + 1) bit key = xorOver n bit key ^^^ (if bit n then key n else 0#8) := by
  simp only [xorOver, List.range_succ, List.foldl_append, List.foldl_cons, List.foldl_nil]
  split <;> simp

theorem xorOver_congr {n : Nat} {bit bit' : Nat → Bool} {key key' : Nat → Byte}
    (h : ∀ k < n, bit k = bit' k) (hk : ∀ k < n, key k = key' k) : xorOver n bit key = xorOver n bit' key' := by
  induction n with
  | zero => rfl
  | succ n ih =>
    rw [xorOver_succ, xorOver_succ, h n (by omega), hk n (by omega),
      ih (fun k h' => h k (by omega)) (fun k h' => hk k (by omega))]

/-- A XOR over n + m steps is that over the first n and that over the m after them. -/
theorem xorOver_add (n m : Nat) (bit : Nat → Bool) (key : Nat → Byte) :
    xorOver (n + m) bit key = xorOver n bit key ^^^ xorOver m (fun k => bit (n + k)) (fun k => key (n + k)) := by
  induction m with
  | zero => simp
  | succ m ih => rw [← Nat.add_assoc, xorOver_succ, ih, xorOver_succ, BitVec.xor_assoc]

/-- With no bit set the XOR is 0. -/
theorem xorOver_of_clear {n : Nat} {bit : Nat → Bool} (key : Nat → Byte) (h : ∀ k < n, bit k = false) :
    xorOver n bit key = 0#8 := by
  induction n with
  | zero => rfl
  | succ n ih => simp [xorOver_succ, h n (by omega), ih (fun k h' => h k (by omega))]

/-- The registers after one byte. -/
theorem engineByte_eq (gen : Byte) (e : EngineRegs) (b : Byte) :
    engineByte gen e b =
      { sum := e.sum ^^^ xorOver 8 (fun i => b.getLsbD i) (keyAt gen e.key), key := keyAt gen e.key 8 } := by
  have general : ∀ n, (List.range n).foldl (fun e i => engineBit gen (b.getLsbD i) e) e =
      { sum := e.sum ^^^ xorOver n (fun i => b.getLsbD i) (keyAt gen e.key), key := keyAt gen e.key n } := by
    intro n
    induction n with
    | zero => simp [keyAt]
    | succ n ih =>
      rw [List.range_succ, List.foldl_append, ih, xorOver_succ]
      simp only [List.foldl_cons, List.foldl_nil, engineBit, keyAt, EngineRegs.mk.injEq, and_true]
      split <;> simp [BitVec.xor_assoc]
  exact general 8

@[simp] theorem engineMessage_nil (gen : Byte) (e : EngineRegs) : engineMessage gen [] e = e := rfl

/-- The first byte of a message is consumed last (20_memory.md R46). -/
theorem engineMessage_cons (gen b : Byte) (msg : List Byte) (e : EngineRegs) :
    engineMessage gen (b :: msg) e = engineByte gen (engineMessage gen msg e) b := by
  simp [engineMessage]

/-- The last byte of a message is consumed first. -/
theorem engineMessage_append (gen : Byte) (a b : List Byte) (e : EngineRegs) :
    engineMessage gen (a ++ b) e = engineMessage gen a (engineMessage gen b e) := by
  simp [engineMessage]

/-- The key after a message depends on its length alone. -/
theorem engineMessage_key (gen : Byte) (msg : List Byte) (e : EngineRegs) :
    (engineMessage gen msg e).key = keyAt gen e.key (8 * msg.length) := by
  induction msg with
  | nil => rfl
  | cons b msg ih =>
    rw [engineMessage_cons, engineByte_eq, List.length_cons]
    show keyAt gen (engineMessage gen msg e).key 8 = _
    rw [ih, keyAt_add]; rfl

/-- One more byte at the front of the message adds its own bits with the keys that follow. -/
theorem digest_cons (b : Byte) (msg : List Byte) (gen key0 : Byte) :
    digest (b :: msg) gen key0 = digest msg gen key0 ^^^
      xorOver 8 (fun i => b.getLsbD i) (fun i => keyAt gen key0 (8 * msg.length + i)) := by
  rw [digest, engineMessage_cons, engineByte_eq, engineMessage_key]
  show _ ^^^ _ = _
  rw [digest]
  exact congrArg _ (xorOver_congr (fun _ _ => rfl) (fun k _ => keyAt_add ..))

@[simp] theorem digest_nil (gen key0 : Byte) : digest [] gen key0 = 0#8 := rfl

/-- A zero key stays zero (R81). -/
theorem lfsrStep_zero (gen : Byte) : lfsrStep 0#8 gen = 0#8 := by simp [lfsrStep]

end Sys2Proof.Machine
end

