-- ==== Sys2Proof/Laws/Operations.lean ====
section
/-!
SUPPORT. One lemma for each operand function, flag and run operation that says what it can do.
-/
namespace Sys2Proof.Machine

/-- Clearing the toggle bit clears bit 0 and keeps every other bit (00_scope.md R15). -/
theorem clearToggle_getLsbD (c : Code) (i : Nat) :
    (clearToggle c).getLsbD i = (decide (i ≠ 0) && c.getLsbD i) := by
  rw [clearToggle, BitVec.getLsbD_and, BitVec.getLsbD_not, BitVec.getLsbD_one, Bool.and_comm]
  by_cases h : i < 64
  · simp [h]
  · simp [BitVec.getLsbD_of_ge c i (by omega)]

/-- Two codes agree with bit 0 cleared exactly when bits 63 to 1 agree (41_telegram_decode.md R92). -/
theorem clearToggle_eq_iff (c d : Code) : clearToggle c = clearToggle d ↔ SameBits c d 63 1 := by
  constructor
  · intro h i h1 h2
    have hi := congrArg (·.getLsbD i) h
    simp only [clearToggle_getLsbD] at hi
    simpa [show i ≠ 0 by omega] using hi
  · intro h
    apply BitVec.eq_of_getLsbD_eq
    intro i hi
    rw [clearToggle_getLsbD, clearToggle_getLsbD]
    by_cases h0 : i = 0
    · simp [h0]
    · rw [h i (by omega) (by omega)]

theorem duplicateMatch_iff (h : History) (proto : Nat) (code : Code) (size : Nat) :
    duplicateMatch h proto code size = true ↔
      h.valid = true ∧ h.code = clearToggle code ∧ h.size = size ∧ h.proto = proto := by
  simp [duplicateMatch, and_assoc]

/-- An empty slot matches nothing (10_state.md R25). -/
theorem duplicateMatch_of_empty {h : History} (hv : h.valid = false) (proto : Nat) (code : Code) (size : Nat) :
    duplicateMatch h proto code size = false := by simp [duplicateMatch, hv]

theorem exceedsMaxLen_iff (P : Params) (len : Nat) :
    exceedsMaxLen P len = true ↔ ∃ bound, P.digestMaxLen = some bound ∧ bound < len := by
  cases h : P.digestMaxLen <;> simp [exceedsMaxLen, h]

/-- Bits `hi` down to `lo` of two codes are equal when those bits are. -/
theorem extractLsb_congr {c d : Code} {hi lo : Nat} (h : SameBits c d hi lo) (hl : lo ≤ hi) :
    c.extractLsb hi lo = d.extractLsb hi lo := by
  apply BitVec.eq_of_getLsbD_eq
  intro i hi'
  rw [BitVec.getLsbD_extractLsb, BitVec.getLsbD_extractLsb, h (lo + i) (by omega) (by omega)]

/-- A byte on RES has its upper byte 0 (30_encoding.md R66). -/
theorem packUnsigned_byte (b : Byte) : packUnsigned b = 0x00#8 ++ b := by revert b; decide

/-- The number a slice of at most 16 bits drives on RES. -/
theorem packUnsigned_extractLsb_toNat (c : Code) (hi lo : Nat) (h : hi - lo + 1 ≤ 16) :
    (packUnsigned (c.extractLsb hi lo)).toNat = c.toNat / 2 ^ lo % 2 ^ (hi - lo + 1) := by
  rw [packUnsigned, BitVec.toNat_setWidth, BitVec.extractLsb_toNat, Nat.shiftRight_eq_div_pow]
  apply Nat.mod_eq_of_lt
  have h2 : 2 ^ (hi - lo + 1) ≤ 2 ^ 16 := Nat.pow_le_pow_right (by decide) h
  have := Nat.mod_lt (c.toNat / 2 ^ lo) (Nat.two_pow_pos (hi - lo + 1))
  omega

/-- Every way a run takes one more command (60_exceptions.md R137, R138). -/
theorem feed_cases (r : Run) (p : Ports) :
    (∃ t, runCommand p r.state = .next t ∧
      r.feed p = { state := t, results := r.results ++ [t.res], mark := r.mark }) ∨
    (∃ m, (∀ t, runCommand p r.state ≠ .next t) ∧
      r.feed p = { state := r.state, results := r.results ++ [none], mark := r.mark.or (some m) }) := by
  cases h : runCommand p r.state with
  | next t => exact .inl ⟨t, rfl, by simp [Run.feed, h]⟩
  | fault f => exact .inr ⟨.fault f, by simp, by simp [Run.feed, h]⟩
  | refused e => exact .inr ⟨.refusal e, by simp, by simp [Run.feed, h]⟩

end Sys2Proof.Machine
end

