-- ==== Sys2Proof/Laws/PerInstr.lean ====
section
/-!
SUPPORT. The statement made per command: decoding what the encoder drives gives the command back.
-/
namespace Sys2Proof.Laws.RoundTrip

/-- Decoding the ports driven for a well-formed command gives it back, whatever the parameters. -/
def Statement (i : Instr) : Prop := ∀ P : Params, WellFormed P i = true → decodePorts P (encode i) = .ok i

theorem digest (msg : List Byte) (gen key : Byte) : Statement (.digest msg gen key) := fun _ _ => rfl

theorem decode (proto : Nat) (code : Code) (size : Nat) : Statement (.decode proto code size) := by
  intro P h
  simp only [WellFormed, Bool.and_eq_true, decide_eq_true_eq] at h
  simp [encode, decodePorts, onWires_of_lt h.1, onWires_of_lt h.2]

theorem rdAddress : Statement .rdAddress := fun _ _ => rfl
theorem rdChecksum : Statement .rdChecksum := fun _ _ => rfl
theorem rdChannel : Statement .rdChannel := fun _ _ => rfl
theorem rdTemperature : Statement .rdTemperature := fun _ _ => rfl
theorem rdHumidity : Statement .rdHumidity := fun _ _ => rfl
theorem rdBatteryOk : Statement .rdBatteryOk := fun _ _ => rfl
theorem rdComputedChecksum : Statement .rdComputedChecksum := fun _ _ => rfl
theorem rdVerified : Statement .rdVerified := fun _ _ => rfl

end Sys2Proof.Laws.RoundTrip
end

