-- ==== Sys2Proof/Tests/Slice0.lean ====
section
/-!
SUPPORT. The model's own tests. Expected values are those of spec/95_test_vectors.md (named in each
comment) or are read off the encoding tables of spec/30_encoding.md; and for each statement with
hypotheses, a witness that meets them.
-/
namespace Sys2Proof.Tests
open Sys2Proof Sys2Proof.Machine

/-! ### Helpers -/

/-- A small block: 8-bit protocols, 6-bit sizes, messages of at most 4 bytes. -/
def small : Params := { protoW := 8, sizeW := 6, digestMaxLen := some 4 }

/-- Telegram E (95_test_vectors.md section 3.1). -/
def E : Code := 0x162059850A8#64

/-- The small block after DECODE 1, c, 41, with the given flag. -/
def latched (c : Code) (verified : Bool) : State :=
  { H := { valid := true, code := clearToggle c, size := 41, proto := 1 }
    T := { valid := true, code := c, size := 41, proto := 1, verified := verified }
    res := none
    inputs := []
    params := small }

/-- The result a command drives, if it completes and drives one. -/
def resultOf : Host.Outcome State Fault Refusal → Option Result
  | .next t => t.res
  | .fault _ => none
  | .refused _ => none

/-- T.verified after a command that completes. -/
def flagAfter : Host.Outcome State Fault Refusal → Option Bool
  | .next t => some t.T.verified
  | .fault _ => none
  | .refused _ => none

def faultOf : Host.Outcome State Fault Refusal → Option Fault
  | .next _ => none
  | .fault f => some f
  | .refused _ => none

def refusalIn : Host.Outcome State Fault Refusal → Option Refusal
  | .next _ => none
  | .fault _ => none
  | .refused r => some r

def completes : Host.Outcome State Fault Refusal → Bool
  | .next _ => true
  | .fault _ => false
  | .refused _ => false

/-! ### Well-formedness, one ill-formed term for each check -/

theorem test_wellFormed_widest : WellFormed small (.decode 255 E 63) = true := by decide
theorem test_illFormed_protocol : WellFormed small (.decode 256 E 63) = false := by decide
theorem test_illFormed_size : WellFormed small (.decode 255 E 64) = false := by decide
theorem test_params_least : Params.wf { protoW := 1, sizeW := 6, digestMaxLen := some 4 } = true := by decide
theorem test_params_no_protocol : Params.wf { protoW := 0, sizeW := 6, digestMaxLen := none } = false := by decide
theorem test_params_short_size : Params.wf { protoW := 1, sizeW := 5, digestMaxLen := none } = false := by decide
theorem test_params_short_message : Params.wf { protoW := 1, sizeW := 6, digestMaxLen := some 3 } = false := by
  decide
theorem test_reset_params : Config.resetParams.wf = true := by decide

/-! ### Decoding: the command words of R61, bit by bit -/

theorem test_word_digest : decodePorts small
    { cmd := 0b0001#4, opGen := 0x31#8, opKey := 0xF4#8, opMsg := [0xB1#8, 0x02#8, 0xCC#8, 0x28#8],
      opCode := 7#64, opProto := 9, opSize := 9 } =
    .ok (.digest [0xB1#8, 0x02#8, 0xCC#8, 0x28#8] 0x31#8 0xF4#8) := by decide
theorem test_word_decode : decodePorts small
    { cmd := 0b0010#4, opProto := 1, opCode := 0x00000162059850A8#64, opSize := 41, opGen := 7#8 } =
    .ok (.decode 1 E 41) := by decide
/-- The protocol port of 8 wires and the size port of 6 carry no more. -/
theorem test_word_decode_wires : decodePorts small { cmd := 0b0010#4, opProto := 257, opSize := 105 } =
    .ok (.decode 1 0#64 41) := by decide
theorem test_word_rdAddress : decodeTableWord 8 0b1000 = some .rdAddress := by decide
theorem test_word_rdChecksum : decodeTableWord 8 0b1001 = some .rdChecksum := by decide
theorem test_word_rdChannel : decodeTableWord 8 0b1010 = some .rdChannel := by decide
theorem test_word_rdTemperature : decodeTableWord 8 0b1011 = some .rdTemperature := by decide
theorem test_word_rdHumidity : decodeTableWord 8 0b1100 = some .rdHumidity := by decide
theorem test_word_rdBatteryOk : decodeTableWord 8 0b1101 = some .rdBatteryOk := by decide
theorem test_word_rdComputedChecksum : decodeTableWord 8 0b1110 = some .rdComputedChecksum := by decide
theorem test_word_rdVerified : decodeTableWord 8 0b1111 = some .rdVerified := by decide
theorem test_word_digest_table : decodeTableWord 8 0b0001 = some (.digest [] 0#8 0#8) := by decide
theorem test_word_decode_table : decodeTableWord 8 0b0010 = some (.decode 0 0#64 0) := by decide
/-- R64: the six reserved words. -/
theorem test_words_reserved : [0x0, 0x3, 0x4, 0x5, 0x6, 0x7].map (decodeTableWord 8) =
    [none, none, none, none, none, none] := by decide

/-! ### Steps from reset -/

theorem test_fetch_decode : completes (step (State.reset.withFetchWord 8 0x2)) = true := by decide
theorem test_fetch_digest : resultOf (step (State.reset.withFetchWord 8 0x1)) = some 0x0000#16 := by decide
/-- F-13. -/
theorem test_fetch_read_faults : faultOf (step (State.reset.withFetchWord 8 0xF)) = some (.readBeforeDecode 0xF#4) := by
  decide
/-- V-14. -/
theorem test_fetch_reserved : refusalIn (step (State.reset.withFetchWord 8 0x5)) = some (.reservedOpcode 0x5#4) := by
  decide
/-- V-13: RESET empties H. -/
theorem test_reset_signal : step { latched E true with inputs := [.reset] } = .next (State.resetOf small) := rfl

/-! ### The checksum engine -/

/-- S-1, S-2, S-3, S-6, S-8. -/
theorem test_lfsrStep : [lfsrStep 0xF4#8 0x31#8, lfsrStep 0x37#8 0x31#8, lfsrStep 0x80#8 0x31#8,
    lfsrStep 0xFF#8 0xFF#8, lfsrStep 0xE0#8 0x07#8] = [0xD9#8, 0x6E#8, 0x31#8, 0x01#8, 0xC7#8] := by decide
/-- The table of R82, k = 0 to 39. -/
theorem test_key_sequence : (List.range 40).map (keyAt Config.tfaGen Config.tfaKey) =
    [0xF4#8, 0xD9#8, 0x83#8, 0x37#8, 0x6E#8, 0xDC#8, 0x89#8, 0x23#8, 0x46#8, 0x8C#8] ++
    [0x29#8, 0x52#8, 0xA4#8, 0x79#8, 0xF2#8, 0xD5#8, 0x9B#8, 0x07#8, 0x0E#8, 0x1C#8] ++
    [0x38#8, 0x70#8, 0xE0#8, 0xF1#8, 0xD3#8, 0x97#8, 0x1F#8, 0x3E#8, 0x7C#8, 0xF8#8] ++
    [0xC1#8, 0xB3#8, 0x57#8, 0xAE#8, 0x6D#8, 0xDA#8, 0x85#8, 0x3B#8, 0x76#8, 0xEC#8] := by decide
/-- D-12, with the trace of section 2.3. -/
theorem test_digest_two_bytes : resultOf (exec (.digest [0x12#8, 0x34#8] 0x07#8 0x01#8) (latched E false)) =
    some 0x004A#16 := by decide
/-- D-20 on an unbounded block; D-21 on a bounded one. -/
theorem test_digest_five_bytes :
    resultOf (exec (.digest [0x01#8, 0x02#8, 0x03#8, 0x04#8, 0x05#8] 0x31#8 0xF4#8) State.reset) = some 0x0002#16 ∧
    refusalIn (exec (.digest [0x01#8, 0x02#8, 0x03#8, 0x04#8, 0x05#8] 0x31#8 0xF4#8) (latched E false)) =
      some (.messageTooLong 5) := by decide
/-- D-6 and D-7: the byte order. -/
theorem test_digest_order : digest [0x01#8, 0x00#8] 0x31#8 0xF4#8 = 0x46#8 ∧
    digest [0x00#8, 0x01#8] 0x31#8 0xF4#8 = 0xF4#8 := by decide

/-! ### DECODE -/

/-- V-1: differ only in bit 0. V-0 and V-11: the first after reset. -/
theorem test_decode_match : flagAfter (exec (.decode 1 0x162059850A9#64 41) (latched E false)) = some true ∧
    flagAfter (exec (.decode 1 E 41) State.reset) = some false ∧
    flagAfter (exec (.decode 0 0#64 0) State.reset) = some false := by decide
/-- V-3, V-4, V-7, V-8: protocol, size, bit 63 and bit 1 take part. -/
theorem test_decode_mismatch : flagAfter (exec (.decode 2 0x162059850A9#64 41) (latched E false)) = some false ∧
    flagAfter (exec (.decode 1 0x162059850A9#64 40) (latched E false)) = some false ∧
    flagAfter (exec (.decode 1 0x80000162059850A8#64 41) (latched E false)) = some false ∧
    flagAfter (exec (.decode 1 0x162059850AA#64 41) (latched E false)) = some false := by decide

/-! ### The field reads: rows F-1, F-8, F-9, F-10, F-12 and T-12 of section 3.2 -/

theorem test_rdAddress : resultOf (exec .rdAddress (latched E false)) = some 0x00B1#16 ∧
    resultOf (exec .rdAddress (latched 0xB445BA6F82#64 false)) = some 0x005A#16 := by decide
theorem test_rdChecksum : resultOf (exec .rdChecksum (latched 0x16205985086#64 false)) = some 0x0043#16 ∧
    resultOf (exec .rdChecksum (latched 0x1FEBFFFFE1E#64 false)) = some 0x000F#16 := by decide
theorem test_rdChannel : resultOf (exec .rdChannel (latched 0xB445BA6F82#64 false)) = some 0x0002#16 ∧
    resultOf (exec .rdChannel (latched 0x1FEBFFFFE1E#64 false)) = some 0x0001#16 := by decide
theorem test_rdTemperature : resultOf (exec .rdTemperature (latched 0x36000C978#64 false)) = some 0xFE0C#16 ∧
    resultOf (exec .rdTemperature (latched 0x1FEBFFFFE1E#64 false)) = some 0x0E0B#16 := by decide
theorem test_rdHumidity : resultOf (exec .rdHumidity (latched 0xB445BA6F82#64 false)) = some 0x0037#16 ∧
    resultOf (exec .rdHumidity (latched 0x1FEBFFFFE1E#64 false)) = some 0x00FF#16 := by decide
theorem test_rdBatteryOk : resultOf (exec .rdBatteryOk (latched E false)) = some 0x0001#16 ∧
    resultOf (exec .rdBatteryOk (latched 0x1630598514A#64 false)) = some 0x0000#16 := by decide
theorem test_rdComputedChecksum : resultOf (exec .rdComputedChecksum (latched 0x16205985086#64 false)) = some 0x0054#16 ∧
    resultOf (exec .rdComputedChecksum (latched 0xFFFFFFFFFFFFFFFF#64 false)) = some 0x008E#16 := by decide
theorem test_rdVerified : resultOf (exec .rdVerified (latched E true)) = some 0x0001#16 ∧
    resultOf (exec .rdVerified (latched E false)) = some 0x0000#16 := by decide
/-- Column "mode" of F-4 and F-1 (R107: no command returns it). -/
theorem test_send_mode : extSendMode 0x16285985168#64 = true ∧ extSendMode E = false := by decide
/-- L1-1, L1-2, L1-3 and R109: what the host makes of results. -/
theorem test_host_side : hostDegrees 0x0000#16 = 0 ∧ hostDegrees 0x00E9#16 = 233 / 10 ∧
    hostDegrees 0xFE0C#16 = -50 ∧ hostDisplayChannel 0x0000#16 = 1 := by
  have h : (0xFE0C#16).toInt = -500 ∧ (0x00E9#16).toInt = 233 := by decide
  refine ⟨?_, ?_, ?_, rfl⟩ <;> norm_num [hostDegrees, Config.tempScale, h.1, h.2]

/-! ### Witnesses: for each statement with hypotheses, an input that meets them -/

theorem witness_DecodeOfEncodeIsIdentity : WellFormed small (.decode 255 E 63) = true := by decide
theorem witness_EncodeOfDecodeKeepsTheCommand :
    decodePorts small { cmd := 0x2#4, opProto := 255, opCode := E, opSize := 63 } = .ok (.decode 255 E 63) := by decide
theorem witness_OpcodeMapOfAllSixteenWords :
    [0x1#4, 0x2#4, 0x8#4, 0x9#4, 0xA#4, 0xB#4, 0xC#4, 0xD#4, 0xE#4, 0xF#4, 0x0#4, 0x3#4, 0x4#4, 0x5#4, 0x6#4, 0x7#4].map
      (fun c => ({ cmd := c } : Ports).cmd.toNat) = [1, 2, 8, 9, 10, 11, 12, 13, 14, 15, 0, 3, 4, 5, 6, 7] := by decide
/-- Port values that differ only where the format does not read, for each format. -/
theorem witness_UnreadPortsDoNotMatter :
    decodePorts small { cmd := 0x1#4, opMsg := [1#8], opCode := 5#64 } = decodePorts small { cmd := 0x1#4, opMsg := [1#8] } ∧
    decodePorts small { cmd := 0x2#4, opSize := 9, opKey := 5#8 } = decodePorts small { cmd := 0x2#4, opSize := 9 } ∧
    decodePorts small { cmd := 0x8#4, opSize := 9, opKey := 5#8 } = decodePorts small { cmd := 0x8#4 } := by decide
theorem witness_StepRunsTheDecodedCommand :
    ({ latched E false with inputs := [.command { cmd := 0xF#4 }] } : State).inputs = .command { cmd := 0xF#4 } :: [] ∧
    decodePorts small { cmd := 0xF#4 } = .ok .rdVerified := by decide
theorem witness_StepWaitsForACommand : State.reset.inputs = [] := by decide
theorem witness_CommandsFoldInIssueOrder :
    (State.resetIssuing small [.command { cmd := 0x2#4 }, .command { cmd := 0xF#4 }]).inputs =
      [({ cmd := 0x2#4 } : Ports), { cmd := 0xF#4 }].map .command := by decide
theorem witness_StepKeepsParametersAndTakesOneInput :
    completes (step { latched E false with inputs := [.command { cmd := 0xF#4 }, .reset] }) = true := by decide
theorem witness_ResetSignalEmptiesHistory :
    (latched E true).H.valid = true ∧ ({ latched E true with inputs := [.reset] } : State).inputs = .reset :: [] ∧
    step { latched E true with inputs := [.reset] } = .next (State.resetOf small) ∧
    (State.resetOf small).H.valid = false := ⟨rfl, rfl, rfl, rfl⟩
theorem witness_ResetLeavesBothRegistersEmpty : State.reset.H.valid = false := by decide
theorem witness_EveryStepKeepsTheInvariant : (latched E false).Inv ∧
    completes (step { latched E false with inputs := [.command { cmd := 0x2#4, opCode := 3#64, opProto := 300 }] }) = true := by
  refine ⟨?_, by decide⟩
  constructor <;> decide
theorem witness_ReachableHistoryMirrorsTelegram :
    ∃ t, Host.Core.run core 1 (State.resetIssuing small [.command { cmd := 0x2#4, opCode := 3#64 }]) = .next t ∧
      t.T.valid = true := ⟨_, rfl, rfl⟩
/-- Two different states that differ only in what an empty H holds. -/
theorem witness_UnspecifiedResetValuesAreUnobservable :
    State.Alike { State.reset with H := { valid := false, code := E, size := 41, proto := 1 } } State.reset ∧
    ({ State.reset with H := { valid := false, code := E, size := 41, proto := 1 } } : State) ≠ State.reset :=
  ⟨⟨⟨rfl, fun h => nomatch h⟩, ⟨rfl, fun _ => rfl⟩, rfl, rfl, rfl⟩, by decide⟩
theorem witness_LfsrStepShiftsAndFeedsBack : 128 ≤ (0x80#8).toNat ∧ (0x7F#8).toNat < 128 ∧
    lfsrStep 0x80#8 0x07#8 = 0x07#8 ∧ lfsrStep 0x7F#8 0x07#8 = 0xFE#8 := by decide
theorem witness_DigestClosedFormAndLinear : (∀ k < 16, stepBit [0x00#8, 0x00#8] k = false) ∧
    [0x01#8, 0x00#8].length = [0x00#8, 0x01#8].length ∧
    digest (xorMessages [0x01#8, 0x00#8] [0x00#8, 0x01#8]) 0x31#8 0xF4#8 = 0xB2#8 := by decide
/-- The longest message that is accepted and the shortest that is refused. -/
theorem witness_DigestDrivesTheDigest : small.digestMaxLen = some 4 ∧ [0#8, 0#8, 0#8, 1#8].length ≤ 4 ∧
    4 < [0#8, 0#8, 0#8, 0#8, 1#8].length ∧ 1 ≤ 4 ∧ ({ cmd := 0x1#4 } : Ports).cmd = 0x1#4 := by decide
theorem witness_OverlongDigestIsRefused : (Run.start small).state.params.digestMaxLen = some 4 ∧
    4 < ({ cmd := 0x1#4, opMsg := [0#8, 0#8, 0#8, 0#8, 1#8] } : Ports).opLen ∧
    State.reset.params.digestMaxLen = none := by decide
theorem witness_DecodeLatchesAndChecksHistory : ({ cmd := 0x2#4, opProto := 255, opSize := 63 } : Ports).cmd = 0x2#4 ∧
    255 < 2 ^ small.protoW ∧ 63 < 2 ^ small.sizeW := by decide
theorem witness_MatchCoversAllButBitZero : ∃ t u, exec (.decode 1 E 41) State.reset = .next t ∧
    exec (.decode 1 (E ||| 1#64) 41) t = .next u ∧ u.T.verified = true := ⟨_, _, rfl, rfl, by decide⟩
theorem witness_BitZeroDoesNotMatter : (E ||| 1#64 = E ∨ E ||| 1#64 = E ||| 1#64) ∧ ((2 : Nat) ≠ 1 ∨ (41 : Nat) ≠ 41) := by
  decide
theorem witness_FirstDecodeIsNeverVerified :
    (∀ i ∈ [Instr.digest [0xFF#8] 0x31#8 0xF4#8], i.isDecode = false) ∧
    completes (runInstrs [.digest [0xFF#8] 0x31#8 0xF4#8] State.reset) = true := by decide
theorem witness_OnlyDecodeTouchesHistory :
    (∀ i ∈ [Instr.digest [0xFF#8] 0x31#8 0xF4#8, .rdAddress], i.isDecode = false) ∧
    completes (runInstrs [.digest [0xFF#8] 0x31#8 0xF4#8, .rdAddress] (latched E false)) = true := by decide
/-- T-12. -/
theorem witness_VerificationIgnoresTheChecksum : extChecksum 0x16205985086#64 ≠ tfaChecksum 0x16205985086#64 := by decide
/-- V-5: the code of the telegram between does not match; and a run of two codes that differ in bit 0, after a
DECODE that does not match its first. -/
theorem witness_WindowIsExactlyOneDecode : ¬ SameBits 0xB445BA6F82#64 E 63 1 ∧
    (∀ c ∈ [E, E ||| 1#64], SameBits c E 63 1) ∧
    completes (exec (.decode 1 0xB445BA6F82#64 41) State.reset) = true := by
  refine ⟨?_, ?_, by decide⟩
  · rw [← clearToggle_eq_iff]; decide
  · intro c hc
    rw [← clearToggle_eq_iff]
    simp only [List.mem_cons, List.not_mem_nil, or_false] at hc
    rcases hc with rfl | rfl <;> decide
theorem witness_EveryOperandValueIsAccepted :
    ({ cmd := 0x2#4, opProto := 1000, opCode := BitVec.allOnes 64, opSize := 1000 } : Ports).cmd = 0x2#4 ∧
    ({ cmd := 0x1#4, opMsg := [1#8, 2#8, 3#8, 4#8] } : Ports).opLen ≤ 4 := by decide
/-- For ReadsNeedADecodedTelegram and the statements of the eight reads (RdAddressReadsBits40To33 to
RdVerifiedDrivesTheFlag): T full with T.code = E, T empty, and the command words at both ends of the range. -/
theorem witness_ReadsNeedADecodedTelegram : ({ cmd := 0x8#4 } : Ports).cmd = 0x8#4 ∧ ({ cmd := 0xF#4 } : Ports).cmd = 0xF#4 ∧
    ({ cmd := 0x8#4 } : Ports).cmd = Instr.rdAddress.opcode ∧ (latched E true).T.valid = true ∧ (latched E true).T.code = E ∧
    (Run.start small).state.T.valid = false ∧ Instr.rdAddress.isRead = true := by decide
theorem witness_RdComputedChecksumDrivesR118 : SameBits 0x1FF#64 0#64 40 9 ∧ ¬ SameBits 0x200#64 0#64 40 9 ∧
    SameBits 0x1FFFFFFFE00#64 (BitVec.allOnes 64) 40 9 := by unfold SameBits; decide
/-- T.code bit 32 clear and set. -/
theorem witness_RdBatteryOkInvertsBit32 : E.toNat / 2 ^ 32 % 2 = 0 ∧ (0x1630598514A#64).toNat / 2 ^ 32 % 2 = 1 := by decide
theorem witness_FieldsReadOnlyTheirOwnBits : SameBits 0x1FF#64 0x1FE#64 8 1 ∧ SameBits (BitVec.allOnes 64) 0x1FE00000000#64 40 33 ∧
    SameBits 0x1FF#64 0#64 16 9 ∧ SameBits 0x1FFFF#64 0#64 28 17 ∧ SameBits 0x1FFFFFFF#64 0#64 30 29 ∧
    SameBits 0x7FFFFFFF#64 0#64 31 31 ∧ SameBits 0xFFFFFFFF#64 0#64 32 32 := by unfold SameBits; decide
theorem witness_HostValidityTestComparesChecksums : ∃ t u, exec .rdComputedChecksum (latched E false) = .next t ∧
    exec .rdChecksum t = .next u := ⟨_, _, rfl, rfl⟩
theorem witness_RegistersChangeOnlyByDecodeOrReset :
    ∃ t, step { latched E false with inputs := [.command { cmd := 0x2#4, opCode := 3#64 }] } = .next t ∧
      t.H ≠ (latched E false).H := ⟨_, rfl, by decide⟩
theorem witness_ReadsRepeatAndDecodeDoesNot : Instr.rdHumidity.isDecode = false ∧
    completes (exec .rdHumidity (latched E false)) = true ∧ completes (exec (.decode 1 E 41) (latched E false)) = true ∧
    State.reset.H.valid = false := by
  decide
/-- Two states with different H, T.size and T.proto and the same T.code and T.verified. -/
theorem witness_ResultsDoNotDependOnHistory :
    Instr.rdVerified.isDecode = false ∧
    ({ latched E true with H := State.reset.H, T := { (latched E true).T with size := 3, proto := 3 } } : State).T.code =
      (latched E true).T.code ∧
    ({ latched E true with H := State.reset.H } : State) ≠ latched E true := by decide
theorem witness_ReservedWordsAreRefused : [0x0#4, 0x3#4, 0x4#4, 0x5#4, 0x6#4, 0x7#4].all (fun c =>
    ({ cmd := c } : Ports).cmd ∈ [0x0#4, 0x3#4, 0x4#4, 0x5#4, 0x6#4, 0x7#4]) = true := by decide
theorem witness_RunMarkIsNeverCleared :
    ((Run.start small).feed { cmd := 0xF#4 }).mark = some (.fault (.readBeforeDecode 0xF#4)) ∧
    faultOf (runCommand { cmd := 0xF#4 } (Run.start small).state) = some (.readBeforeDecode 0xF#4) := by decide
/-- A DECODE and a DIGEST that complete, and an RD_VERIFIED that does not. -/
theorem witness_RunObservesOneResultPerCommand :
    completes (serveCommands [{ cmd := 0x2#4 }, { cmd := 0x1#4 }] (State.resetOf small)) = true ∧
    ((Run.start small).feed { cmd := 0x1#4, opMsg := [0x02#8], opGen := 0x31#8, opKey := 0x80#8 }).results =
      [some 0x0031#16] ∧
    ((Run.start small).feed { cmd := 0x2#4 }).results = [none] ∧
    completes (runCommand { cmd := 0xF#4 } (Run.start small).state) = false := by decide
/-- The least parameters R8 allows, and a message of 4 bytes. -/
theorem witness_LimitsAdmitProtocolOneSizeFortyOneFourBytes :
    (State.resetOf { protoW := 1, sizeW := 6, digestMaxLen := some 4 }).params.wf = true ∧
    [0xB1#8, 0x02#8, 0xCC#8, 0x28#8].length ≤ 4 := by decide

end Sys2Proof.Tests
end

section
/-!
SUPPORT. What a served command and the limits of 00_scope.md R8 say, and the statements on the OPEN
parameters settled from them.
-/
namespace Sys2Proof

/-- The limits of R8 as inequalities; an unbounded DIGEST_MAX_LEN meets its limit. -/
theorem Params.wf_iff (P : Params) :
    P.wf = true ↔ 1 ≤ P.protoW ∧ 6 ≤ P.sizeW ∧ ∀ bound, P.digestMaxLen = some bound → 4 ≤ bound := by
  cases h : P.digestMaxLen <;> simp [Params.wf, h, and_assoc]

/-- The operands that fit their ports whatever the parameters are within the limits of R8. -/
theorem wellFormed_decode_of_wf {P : Params} (hP : P.wf = true) {proto size : Nat} (hproto : proto < 2 ^ 1)
    (hsize : size < 2 ^ 6) (code : Code) : WellFormed P (.decode proto code size) = true := by
  obtain ⟨hprotoW, hsizeW, -⟩ := P.wf_iff.mp hP
  simp only [WellFormed, Bool.and_eq_true, decide_eq_true_eq]
  exact ⟨hproto.trans_le (Nat.pow_le_pow_right two_pos hprotoW),
    hsize.trans_le (Nat.pow_le_pow_right two_pos hsizeW)⟩

namespace Machine

variable {s t : State}

/-- A served command that completes changes neither the parameters nor the pending inputs. -/
theorem runCommand_frame {p : Ports} (h : runCommand p s = .next t) :
    t.params = s.params ∧ t.inputs = s.inputs := by
  rcases runCommand_cases p s with ⟨i, -, hr⟩ | ⟨e, -, hr⟩ <;> rw [hr] at h
  · exact exec_frame h
  · cases h

/-- Within the limits of R8 a message of up to 4 bytes is never too long. -/
theorem exceedsMaxLen_of_wf {P : Params} (hP : P.wf = true) {len : Nat} (hlen : len ≤ 4) :
    exceedsMaxLen P len = false := by
  obtain ⟨-, -, hbound⟩ := P.wf_iff.mp hP
  rw [← Bool.not_eq_true, exceedsMaxLen_iff]
  rintro ⟨bound, hb, hlt⟩
  have := hbound bound hb
  omega

/-- DIGEST completes on a message that is not too long (40_checksum_engine.md R80). -/
theorem exec_digest_of_within {msg : List Byte} (h : exceedsMaxLen s.params msg.length = false)
    (gen key : Byte) :
    exec (.digest msg gen key) s = .next (s.driveRes (packUnsigned (digest msg gen key))) := by
  simp [exec, execDigest, h]

/-- Settles O9: each way a step can end (waiting, RESET, a command) keeps the parameters and leaves the tail
of the queue. -/
theorem stepKeepsParametersAndTakesOneInput : Obligations.StepKeepsParametersAndTakesOneInput := by
  intro s t h
  rcases step_cases s with ⟨hq, hs⟩ | ⟨rest, hq, hs⟩ | ⟨p, rest, hq, hs⟩ <;> rw [hs] at h <;> rw [hq]
  · cases h
    exact ⟨rfl, hq⟩
  · cases h
    exact ⟨rfl, rfl⟩
  · exact runCommand_frame h

/-- Settles O50: 1 < 2 ^ 1 and 41 < 2 ^ 6 fit the narrowest ports, and 4 bytes the least bound. -/
theorem limitsAdmitProtocolOneSizeFortyOneFourBytes :
    Obligations.LimitsAdmitProtocolOneSizeFortyOneFourBytes := by
  intro s hs
  refine ⟨fun c => ?_, fun msg gen key hlen => ?_⟩
  · exact wellFormed_decode_of_wf hs (by decide) (by decide) c
  · exact exec_digest_of_within (exceedsMaxLen_of_wf hs hlen) gen key

end Machine
end Sys2Proof
end

section
/-!
SUPPORT. What a step that completes does to H and T, said once, and the statements of 10_state.md R24, R25,
R27, R33, R35 and R37 settled from it.
-/
namespace Sys2Proof.Machine

variable {s t : State}

theorem runCommand_of_ok {p : Ports} {i : Instr} (h : decodePorts s.params p = .ok i) :
    runCommand p s = exec i s := by simp [runCommand, h]

theorem runCommand_of_error {p : Ports} {e : DecodeRejection} (h : decodePorts s.params p = .error e) :
    runCommand p s = .refused (refusalOf e) := by simp [runCommand, h]

/-- A command other than DECODE that completes drives RES and changes nothing else (41_telegram_decode.md
R96). -/
theorem eq_driveRes_of_exec_next {i : Instr} (hi : i.isDecode = false) (h : exec i s = .next t) :
    ∃ r, t = s.driveRes r := by
  rcases exec_next_cases h with ⟨r, -, ht⟩ | ⟨proto, code, size, rfl, -⟩
  · exact ⟨r, ht⟩
  · cases hi

/-- A served command that completes drives RES and changes nothing else, unless its word is 0x2: then it
latches the telegram its wires carry. -/
theorem runCommand_next_cases {p : Ports} (h : runCommand p s = .next t) :
    (p.cmd ≠ 0x2#4 ∧ ∃ r, t = s.driveRes r) ∨
    (p.cmd = 0x2#4 ∧ ∃ v, t = s.latchTelegram (onWires s.params.protoW p.opProto) p.opCode
      (onWires s.params.sizeW p.opSize) v) := by
  rcases decodePorts_cases s.params p with ⟨hc, hd⟩ | ⟨hc, hd⟩ | ⟨i, hr, hc, hd⟩ | ⟨-, hd⟩
  · rw [runCommand_of_ok hd] at h
    exact .inl ⟨by simp [hc], eq_driveRes_of_exec_next rfl h⟩
  · rw [runCommand_of_ok hd] at h
    cases h
    exact .inr ⟨hc, _, rfl⟩
  · rw [runCommand_of_ok hd] at h
    have hi : i.isDecode = false ∧ i.opcode ≠ 0x2#4 := by
      cases i <;> simp_all [Instr.isRead, Instr.isDecode, Instr.opcode]
    exact .inl ⟨hc ▸ hi.2, eq_driveRes_of_exec_next hi.1 h⟩
  · rw [runCommand_of_error hd] at h
    cases h

/-- What a step that completes does to H and T: nothing; or it serves RESET and empties both; or it serves a
DECODE and latches the telegram its wires carry. -/
theorem step_next_registers (h : step s = .next t) :
    (t.H = s.H ∧ t.T = s.T) ∨
    ((∃ rest, s.inputs = .reset :: rest) ∧
      t.H = (State.resetOf s.params).H ∧ t.T = (State.resetOf s.params).T) ∨
    (∃ p rest, s.inputs = .command p :: rest ∧ p.cmd = 0x2#4 ∧
      ∃ v, t = State.latchTelegram { s with inputs := rest } (onWires s.params.protoW p.opProto) p.opCode
        (onWires s.params.sizeW p.opSize) v) := by
  rcases step_cases s with ⟨-, hs⟩ | ⟨rest, hq, hs⟩ | ⟨p, rest, hq, hs⟩ <;> rw [hs] at h
  · cases h
    exact .inl ⟨rfl, rfl⟩
  · cases h
    exact .inr (.inl ⟨⟨rest, hq⟩, rfl, rfl⟩)
  · rcases runCommand_next_cases h with ⟨-, r, rfl⟩ | ⟨hc, v, rfl⟩
    · exact .inl ⟨rfl, rfl⟩
    · exact .inr (.inr ⟨p, rest, hq, hc, v, rfl⟩)

/-! ### The register invariant -/

/-- The invariant speaks of H, T and the parameters alone. -/
theorem State.Inv.congr (hs : s.Inv) (hH : t.H = s.H) (hT : t.T = s.T) (hP : t.params = s.params) :
    t.Inv := by
  obtain ⟨H, T, res, inputs, params⟩ := t
  subst hH hT hP
  exact { hs with }

/-- Empty registers agree, and the zeros of log 2 fit every width. -/
theorem resetOf_inv (P : Params) : (State.resetOf P).Inv where
  valid_eq := rfl
  code_eq := nofun
  size_eq := nofun
  proto_eq := nofun
  sizeH_lt := Nat.two_pow_pos _
  protoH_lt := Nat.two_pow_pos _
  sizeT_lt := Nat.two_pow_pos _
  protoT_lt := Nat.two_pow_pos _

/-- DECODE's writes establish the invariant, from any state, for operands that fit their ports. -/
theorem latchTelegram_inv {proto size : Nat} (hproto : proto < 2 ^ s.params.protoW)
    (hsize : size < 2 ^ s.params.sizeW) (code : Code) (v : Bool) :
    (s.latchTelegram proto code size v).Inv where
  valid_eq := rfl
  code_eq _ := rfl
  size_eq _ := rfl
  proto_eq _ := rfl
  sizeH_lt := hsize
  protoH_lt := hproto
  sizeT_lt := hsize
  protoT_lt := hproto

/-- Settles O13: a step leaves H and T as they were, empties both, or latches a telegram that fits the
wires. -/
theorem everyStepKeepsTheInvariant : Obligations.EveryStepKeepsTheInvariant := by
  intro s t hs h
  have hP : t.params = s.params := (stepKeepsParametersAndTakesOneInput s t h).1
  rcases step_next_registers h with ⟨hH, hT⟩ | ⟨-, hH, hT⟩ | ⟨p, rest, -, -, v, rfl⟩
  · exact hs.congr hH hT hP
  · exact (resetOf_inv s.params).congr hH hT hP
  · exact latchTelegram_inv (onWires_lt _ _) (onWires_lt _ _) p.opCode v

/-- Settles O12. -/
theorem invariantHoldsAtReset : Obligations.InvariantHoldsAtReset :=
  ⟨resetOf_inv Config.resetParams, resetOf_inv⟩

/-- Settles O14: the invariant holds at reset and every step keeps it, so it holds after any number of
steps. -/
theorem reachableHistoryMirrorsTelegram : Obligations.ReachableHistoryMirrorsTelegram := by
  intro P q k t h
  have start : (State.resetIssuing P q).Inv := (resetOf_inv P).congr rfl rfl rfl
  have inv : t.Inv := run_keeps everyStepKeepsTheInvariant k _ t start h
  exact ⟨inv.valid_eq, fun hv => ⟨inv.code_eq hv, inv.size_eq hv, inv.proto_eq hv⟩⟩

/-- Settles O43: in the one case of `step_next_registers` left out neither register changes. -/
theorem registersChangeOnlyByDecodeOrReset : Obligations.RegistersChangeOnlyByDecodeOrReset := by
  intro s t h hne
  rcases step_next_registers h with ⟨hH, hT⟩ | ⟨hreset, -, -⟩ | ⟨p, rest, hq, hc, -⟩
  · exact absurd hne (by simp [hH, hT])
  · exact .inl hreset
  · exact .inr ⟨p, rest, hq, hc⟩

/-- Settles O11: the match an empty slot gives is the flag that DECODE latches. -/
theorem resetLeavesBothRegistersEmpty : Obligations.ResetLeavesBothRegistersEmpty := by
  refine ⟨fun P => ⟨rfl, rfl, rfl⟩, ⟨rfl, rfl⟩, fun s hv proto code size => ⟨_, rfl, ?_⟩⟩
  exact duplicateMatch_of_empty hv proto code size

end Sys2Proof.Machine
end

section
/-!
SUPPORT. What the results and outcomes of a command depend on, and the two statements that compare a pair of
states settled from it (10_state.md R26, R30, R32, R36).
-/
namespace Sys2Proof.Machine

variable {s t : State}

/-- Every command is DIGEST, DECODE or a read of T. -/
theorem instr_cases (i : Instr) :
    (∃ msg gen key, i = .digest msg gen key) ∨ (∃ proto code size, i = .decode proto code size) ∨
    (∃ v, readValue i = some v) := by
  cases i
  case digest msg gen key => exact .inl ⟨msg, gen, key, rfl⟩
  case decode proto code size => exact .inr (.inl ⟨proto, code, size, rfl⟩)
  all_goals exact .inr (.inr ⟨_, rfl⟩)

/-- DIGEST is refused on a message that is too long (60_exceptions.md R133). -/
theorem exec_digest_of_exceeds {msg : List Byte} (h : exceedsMaxLen s.params msg.length = true)
    (gen key : Byte) : exec (.digest msg gen key) s = .refused (.messageTooLong msg.length) := by
  simp [exec, execDigest, h]

/-- What a read packs depends on T.code and T.verified alone (R32). -/
theorem readValue_congr {i : Instr} {v : Telegram → Result} (hi : readValue i = some v) {a b : Telegram}
    (hcode : a.code = b.code) (hverified : a.verified = b.verified) : v a = v b := by
  cases i <;> simp only [readValue, Option.some.injEq, reduceCtorEq] at hi <;> subst hi <;>
    simp only [hcode, hverified]

/-- Settles O45: DIGEST looks at the parameters alone, and a read at T.valid and at the fields of
`readValue_congr`. -/
theorem resultsDoNotDependOnHistory : Obligations.ResultsDoNotDependOnHistory := by
  intro i s t hi hparams hvalid hcode hverified
  rcases instr_cases i with ⟨msg, gen, key, rfl⟩ | ⟨proto, code, size, rfl⟩ | ⟨v, hv⟩
  · cases hs : exceedsMaxLen s.params msg.length
    · exact .inl ⟨_, _, exec_digest_of_within hs gen key, exec_digest_of_within (hparams ▸ hs) gen key, rfl⟩
    · exact .inr (.inr ⟨_, exec_digest_of_exceeds hs gen key, exec_digest_of_exceeds (hparams ▸ hs) gen key⟩)
  · cases hi
  · rw [exec_of_readValue hv, exec_of_readValue hv]
    cases hs : s.T.valid
    · exact .inr (.inl ⟨_, readTelegram_of_empty _ v hs, readTelegram_of_empty _ v (hvalid ▸ hs)⟩)
    · exact .inl ⟨_, _, readTelegram_of_valid _ v hs, readTelegram_of_valid _ v (hvalid ▸ hs),
        congrArg some (readValue_congr hv hcode hverified)⟩

/-! ### States that differ only in what empty registers hold -/

/-- The three ways two outcomes can be alike. -/
theorem OutcomesAlike.cases : ∀ {o q : Host.Outcome State Fault Refusal}, OutcomesAlike o q →
    (∃ u v, o = .next u ∧ q = .next v ∧ u.Alike v) ∨ (∃ f, o = .fault f ∧ q = .fault f) ∨
    (∃ r, o = .refused r ∧ q = .refused r)
  | .next u, .next v, h => .inl ⟨u, v, rfl, rfl, h⟩
  | .fault f, .fault _, rfl => .inr (.inl ⟨f, rfl, rfl⟩)
  | .refused r, .refused _, rfl => .inr (.inr ⟨r, rfl, rfl⟩)

theorem History.Alike.refl (h : History) : h.Alike h := ⟨rfl, fun _ => rfl⟩

theorem Telegram.Alike.refl (a : Telegram) : a.Alike a := ⟨rfl, fun _ => rfl⟩

/-- The match cannot tell alike H registers apart: an empty one matches nothing (R25). -/
theorem History.Alike.duplicateMatch_eq {h k : History} (hk : h.Alike k) (proto : Nat) (code : Code)
    (size : Nat) : duplicateMatch h proto code size = duplicateMatch k proto code size := by
  obtain ⟨hvalid, heq⟩ := hk
  cases hv : h.valid
  · rw [duplicateMatch_of_empty hv, duplicateMatch_of_empty (hvalid ▸ hv)]
  · rw [heq hv]

theorem State.Alike.driveRes (h : s.Alike t) (r : Result) : (s.driveRes r).Alike (t.driveRes r) :=
  { h with res := rfl }

theorem State.Alike.withInputs (h : s.Alike t) (q : List HostInput) :
    State.Alike { s with inputs := q } { t with inputs := q } :=
  { h with inputs := rfl }

/-- What DECODE latches is full, so it is the same in both states. -/
theorem State.Alike.latchTelegram (h : s.Alike t) (proto : Nat) (code : Code) (size : Nat) (v : Bool) :
    (s.latchTelegram proto code size v).Alike (t.latchTelegram proto code size v) where
  history := .refl _
  telegram := .refl _
  res := rfl
  inputs := h.inputs
  params := h.params

theorem State.Alike.resetSignal (h : s.Alike t) : s.resetSignal.Alike t.resetSignal where
  history := .refl _
  telegram := .refl _
  res := rfl
  inputs := h.inputs
  params := h.params

/-- A read cannot tell alike states apart: of an empty T it looks at T.valid alone (R30). -/
theorem readTelegram_alike (h : s.Alike t) (cmd : CmdWord) (value : Telegram → Result) :
    OutcomesAlike (readTelegram cmd value s) (readTelegram cmd value t) := by
  obtain ⟨hvalid, heq⟩ := h.telegram
  cases hv : s.T.valid
  · rw [readTelegram_of_empty cmd value hv, readTelegram_of_empty cmd value (hvalid ▸ hv)]
    rfl
  · rw [readTelegram_of_valid cmd value hv, readTelegram_of_valid cmd value (hvalid ▸ hv), heq hv]
    exact h.driveRes _

/-- DIGEST looks at the parameters alone, which alike states share. -/
theorem exec_digest_alike (h : s.Alike t) (msg : List Byte) (gen key : Byte) :
    OutcomesAlike (exec (.digest msg gen key) s) (exec (.digest msg gen key) t) := by
  cases hs : exceedsMaxLen s.params msg.length
  · rw [exec_digest_of_within hs, exec_digest_of_within (h.params ▸ hs)]
    exact h.driveRes _
  · rw [exec_digest_of_exceeds hs, exec_digest_of_exceeds (h.params ▸ hs)]
    rfl

/-- DECODE looks at H through the match alone. -/
theorem exec_decode_alike (h : s.Alike t) (proto : Nat) (code : Code) (size : Nat) :
    OutcomesAlike (exec (.decode proto code size) s) (exec (.decode proto code size) t) := by
  show (s.latchTelegram proto code size _).Alike (t.latchTelegram proto code size _)
  rw [h.history.duplicateMatch_eq]
  exact h.latchTelegram proto code size _

theorem exec_alike (h : s.Alike t) (i : Instr) : OutcomesAlike (exec i s) (exec i t) := by
  rcases instr_cases i with ⟨msg, gen, key, rfl⟩ | ⟨proto, code, size, rfl⟩ | ⟨v, hv⟩
  · exact exec_digest_alike h msg gen key
  · exact exec_decode_alike h proto code size
  · rw [exec_of_readValue hv, exec_of_readValue hv]
    exact readTelegram_alike h _ v

theorem runCommand_alike (h : s.Alike t) (p : Ports) :
    OutcomesAlike (runCommand p s) (runCommand p t) := by
  cases hd : decodePorts s.params p with
  | ok i =>
    rw [runCommand_of_ok hd, runCommand_of_ok (h.params ▸ hd)]
    exact exec_alike h i
  | error e =>
    rw [runCommand_of_error hd, runCommand_of_error (h.params ▸ hd)]
    rfl

theorem serve_alike (h : s.Alike t) : ∀ e : HostInput, OutcomesAlike (serve e s) (serve e t)
  | .command p => runCommand_alike h p
  | .reset => h.resetSignal

theorem step_of_cons {e : HostInput} {rest : List HostInput} (h : s.inputs = e :: rest) :
    step s = serve e { s with inputs := rest } := by simp [step, h]

theorem step_of_nil (h : s.inputs = []) : step s = .next s := by simp [step, h]

theorem step_alike (h : s.Alike t) : OutcomesAlike (step s) (step t) := by
  cases hq : s.inputs with
  | nil =>
    rw [step_of_nil hq, step_of_nil (h.inputs ▸ hq)]
    exact h
  | cons e rest =>
    rw [step_of_cons hq, step_of_cons (h.inputs ▸ hq)]
    exact serve_alike (h.withInputs rest) e

/-- Settles O15, by induction on the number of steps: one step of alike states ends alike. -/
theorem unspecifiedResetValuesAreUnobservable : Obligations.UnspecifiedResetValuesAreUnobservable := by
  intro k
  induction k with
  | zero => exact fun s t h => h
  | succ k ih =>
    intro s t h
    rcases (step_alike h).cases with ⟨u, v, hs, ht, huv⟩ | ⟨f, hs, ht⟩ | ⟨r, hs, ht⟩
    · rw [run_succ_of_next k hs, run_succ_of_next k ht]
      exact ih u v huv
    · rw [run_succ_of_fault k hs, run_succ_of_fault k ht]
      rfl
    · rw [run_succ_of_refused k hs, run_succ_of_refused k ht]
      rfl

end Sys2Proof.Machine
end

section
/-!
SUPPORT. The order in which pending commands are served, and which commands may be repeated: the statements of
20_memory.md R50 and R51 settled.
-/
namespace Sys2Proof.Machine

variable {s t : State}

/-! ### Serving the pending commands -/

/-- The step that serves a pending command runs it, and what it leaves pending is the rest. -/
theorem step_of_command {p : Ports} {rest : List HostInput} (h : s.inputs = .command p :: rest) :
    step s = withQueue rest (runCommand p s) := by
  rw [step_of_cons h, serve, runCommand_withInputs]

/-- Replacing the pending inputs commutes with serving commands. -/
theorem serveCommands_withInputs (ps : List Ports) (s : State) (q : List HostInput) :
    serveCommands ps { s with inputs := q } = withQueue q (serveCommands ps s) := by
  induction ps generalizing s with
  | nil => rfl
  | cons p ps ih =>
    rw [serveCommands, serveCommands, runCommand_withInputs]
    cases runCommand p s with
    | next t => exact ih t
    | fault f => rfl
    | refused r => rfl

/-- As many steps as there are commands at the front of the queue serve exactly those, and leave the inputs
behind them pending. -/
theorem run_length_of_commands (ps : List Ports) (rest : List HostInput)
    (h : s.inputs = ps.map .command ++ rest) :
    Host.Core.run core ps.length s = serveCommands ps { s with inputs := rest } := by
  induction ps generalizing s with
  | nil => subst h; rfl
  | cons p ps ih =>
    have hstep : step s = withQueue (ps.map .command ++ rest) (runCommand p s) := step_of_command h
    rw [serveCommands, runCommand_withInputs, List.length_cons]
    cases hp : runCommand p s <;> rw [hp] at hstep
    case next t =>
      rw [run_succ_of_next _ hstep, ih rfl]
      rfl
    case fault f => exact run_succ_of_fault _ hstep
    case refused r => exact run_succ_of_refused _ hstep

/-- Settles O8: the steps serve the commands in order with nothing behind them, and no command looks at what
is pending. -/
theorem commandsFoldInIssueOrder : Obligations.CommandsFoldInIssueOrder := by
  intro ps s h
  rw [← serveCommands_withInputs]
  exact run_length_of_commands ps [] (by rw [h, List.append_nil])

/-! ### Repeating a command -/

/-- A command other than DECODE does not look at RES, and drives it anew. -/
theorem exec_driveRes {i : Instr} (hi : i.isDecode = false) (s : State) (r : Result) :
    exec i (s.driveRes r) = exec i s := by
  rcases instr_cases i with ⟨msg, gen, key, rfl⟩ | ⟨proto, code, size, rfl⟩ | ⟨v, hv⟩
  · rfl
  · cases hi
  · rw [exec_of_readValue hv, exec_of_readValue hv]
    rfl

theorem exec_decode (proto : Nat) (code : Code) (size : Nat) (s : State) :
    exec (.decode proto code size) s =
      .next (s.latchTelegram proto code size (duplicateMatch s.H proto code size)) := rfl

/-- The triple that DECODE latches matches its own operands (41_telegram_decode.md R91). -/
theorem duplicateMatch_latchTelegram (s : State) (proto : Nat) (code : Code) (size : Nat) (v : Bool) :
    duplicateMatch (s.latchTelegram proto code size v).H proto code size = true :=
  (duplicateMatch_iff _ _ _ _).mpr ⟨rfl, rfl, rfl, rfl⟩

/-- A DECODE repeated with the same operands completes with T.verified = 1. -/
theorem decode_repeated_verified {proto : Nat} {code : Code} {size : Nat}
    (h : exec (.decode proto code size) s = .next t) :
    ∃ u, exec (.decode proto code size) t = .next u ∧ u.T.verified = true := by
  cases h
  exact ⟨_, exec_decode proto code size _, duplicateMatch_latchTelegram s proto code size _⟩

/-- Settles O44: only RES differs after a command other than DECODE, which does not look at it; a DECODE finds
its own triple when repeated, and from an empty slot T.verified tells the two states apart. -/
theorem readsRepeatAndDecodeDoesNot : Obligations.ReadsRepeatAndDecodeDoesNot := by
  refine ⟨fun i s t hi h => ?_, fun s t proto code size => decode_repeated_verified,
    fun s proto code size hv => ?_⟩
  · obtain ⟨r, rfl⟩ := eq_driveRes_of_exec_next hi h
    exact ⟨⟨r, rfl⟩, (exec_driveRes hi s r).trans h⟩
  · have first := exec_decode proto code size s
    rw [duplicateMatch_of_empty hv] at first
    obtain ⟨u, second, hu⟩ := decode_repeated_verified first
    exact ⟨_, u, first, rfl, second, hu, by rintro rfl; cases hu⟩

end Sys2Proof.Machine
end

section
/-!
SUPPORT. The opcode map of 30_encoding.md R61 line by line, the slices of a telegram code, and the statements on
the encoding settled from them.
-/
namespace Sys2Proof

variable {P : Params} {p : Ports}

/-! ### The opcode map -/

theorem decodePorts_of_digest (h : p.cmd = 0x1#4) :
    decodePorts P p = .ok (.digest p.opMsg p.opGen p.opKey) := by simp [decodePorts, h]

theorem decodePorts_of_decode (h : p.cmd = 0x2#4) : decodePorts P p =
    .ok (.decode (onWires P.protoW p.opProto) p.opCode (onWires P.sizeW p.opSize)) := by
  simp [decodePorts, h]

/-- A word of format R is its command, whatever the operand ports carry (R60). -/
theorem decodePorts_of_read (i : Instr) (hi : i.isRead = true) (h : p.cmd = i.opcode) :
    decodePorts P p = .ok i := by
  cases i <;> simp_all [Instr.isRead, Instr.opcode, decodePorts]

/-- The six reserved words of R64. -/
theorem decodePorts_of_reserved (h : p.cmd ∈ [0x0#4, 0x3#4, 0x4#4, 0x5#4, 0x6#4, 0x7#4]) :
    decodePorts P p = .error (.reservedOpcode p.cmd) := by
  simp only [List.mem_cons, List.not_mem_nil, or_false] at h
  rcases h with h | h | h | h | h | h <;> simp [decodePorts, h]

/-- The command the decoder answers has the word it was read from. -/
theorem opcode_of_decodePorts {i : Instr} (h : decodePorts P p = .ok i) : i.opcode = p.cmd := by
  rcases decodePorts_cases P p with ⟨hc, hd⟩ | ⟨hc, hd⟩ | ⟨j, -, hc, hd⟩ | ⟨-, hd⟩ <;>
    cases hd.symm.trans h
  · exact hc.symm
  · exact hc.symm
  · exact hc.symm

/-- Settles O1, command by command: only DECODE has operands that must fit their ports. -/
theorem decodeOfEncodeIsIdentity : Obligations.DecodeOfEncodeIsIdentity := by
  intro P i
  suffices Laws.RoundTrip.Statement i from this P
  cases i with
  | digest msg gen key => exact Laws.RoundTrip.digest msg gen key
  | decode proto code size => exact Laws.RoundTrip.decode proto code size
  | rdAddress => exact Laws.RoundTrip.rdAddress
  | rdChecksum => exact Laws.RoundTrip.rdChecksum
  | rdChannel => exact Laws.RoundTrip.rdChannel
  | rdTemperature => exact Laws.RoundTrip.rdTemperature
  | rdHumidity => exact Laws.RoundTrip.rdHumidity
  | rdBatteryOk => exact Laws.RoundTrip.rdBatteryOk
  | rdComputedChecksum => exact Laws.RoundTrip.rdComputedChecksum
  | rdVerified => exact Laws.RoundTrip.rdVerified

/-- Settles O2: what the decoder answers is well formed, so O1 applies to it. -/
theorem encodeOfDecodeKeepsTheCommand : Obligations.EncodeOfDecodeKeepsTheCommand := by
  intro P p i h
  have hword : i.opcode = p.cmd := opcode_of_decodePorts h
  have hwf : WellFormed P i = true := decodePorts_wellFormed h
  exact ⟨(encode_cmd i).trans hword, hword, hwf, decodeOfEncodeIsIdentity P i hwf⟩

/-- Settles O4: each line of the opcode map reads the ports of its own format alone. -/
theorem unreadPortsDoNotMatter : Obligations.UnreadPortsDoNotMatter := by
  intro P p q hcmd hdigest hdecode
  rcases decodePorts_cases P p with ⟨hc, hd⟩ | ⟨hc, hd⟩ | ⟨i, hi, hc, hd⟩ | ⟨hc, hd⟩ <;> rw [hd]
  · obtain ⟨hmsg, hgen, hkey⟩ := hdigest hc
    rw [decodePorts_of_digest (hcmd ▸ hc), hmsg, hgen, hkey]
  · obtain ⟨hproto, hcode, hsize⟩ := hdecode hc
    rw [decodePorts_of_decode (hcmd ▸ hc), hproto, hcode, hsize]
  · rw [decodePorts_of_read i hi (hcmd ▸ hc)]
  · rw [decodePorts_of_reserved (hcmd ▸ hc), hcmd]

/-- Settles O3. -/
theorem opcodeMapOfAllSixteenWords : Obligations.OpcodeMapOfAllSixteenWords := fun _ _ =>
  ⟨decodePorts_of_digest, fun h => ⟨_, _, decodePorts_of_decode h⟩, decodePorts_of_read .rdAddress rfl,
    decodePorts_of_read .rdChecksum rfl, decodePorts_of_read .rdChannel rfl,
    decodePorts_of_read .rdTemperature rfl, decodePorts_of_read .rdHumidity rfl,
    decodePorts_of_read .rdBatteryOk rfl, decodePorts_of_read .rdComputedChecksum rfl,
    decodePorts_of_read .rdVerified rfl, decodePorts_of_reserved⟩

/-- Settles O5: the lines of the opcode map at these words; protocol 1 and size 41 fit the narrowest ports. -/
theorem sampleWordsDecode : Obligations.SampleWordsDecode :=
  ⟨fun _ => decodePorts_of_digest rfl, decodePorts_of_decode rfl,
    fun _ => decodePorts_of_read .rdTemperature rfl rfl, fun _ => decodePorts_of_reserved (by decide)⟩

namespace Machine

variable {s : State}

/-! ### Running the decoded command -/

/-- Settles O6: what is pending does not reach the decoder. -/
theorem stepRunsTheDecodedCommand : Obligations.StepRunsTheDecodedCommand := by
  intro s p rest i hq hd
  rw [step_of_cons hq, serve]
  exact runCommand_of_ok hd

/-- A message within every bound there is, is not too long (60_exceptions.md R133). -/
theorem exceedsMaxLen_of_le {P : Params} {len : Nat}
    (h : ∀ bound, P.digestMaxLen = some bound → len ≤ bound) : exceedsMaxLen P len = false := by
  rw [← Bool.not_eq_true, exceedsMaxLen_iff]
  rintro ⟨bound, hb, hlt⟩
  exact absurd (h bound hb) (Nat.not_le_of_lt hlt)

/-- Settles O29: DECODE always completes, and DIGEST is refused for its length alone. -/
theorem everyOperandValueIsAccepted : Obligations.EveryOperandValueIsAccepted := by
  refine ⟨fun s p hc => ?_, fun s p hc hlen => ?_⟩
  · rw [runCommand_of_ok (decodePorts_of_decode hc), exec_decode]
    exact ⟨_, rfl⟩
  · have within : exceedsMaxLen s.params p.opMsg.length = false := exceedsMaxLen_of_le hlen
    rw [runCommand_of_ok (decodePorts_of_digest hc), exec_digest_of_within within]
    exact ⟨_, rfl⟩

/-! ### The fields as adjacent slices -/

/-- A bit of a code is a slice of width 1. -/
theorem ofBool_getLsbD_eq_slice (c : Code) (k : Nat) :
    BitVec.ofBool (c.getLsbD k) = c.extractLsb' k 1 := by
  apply BitVec.eq_of_getLsbD_eq
  intro j hj
  obtain rfl : j = 0 := by omega
  simp

/-- Settles O40: each field but the lowest starts where the one below it ends (R63), so the slices join. -/
theorem fieldsTileBits40To1 : Obligations.FieldsTileBits40To1 := by
  intro c
  show c.extractLsb' 1 40 = c.extractLsb' 33 8 ++ (BitVec.ofBool (c.getLsbD 32) ++
    (BitVec.ofBool (c.getLsbD 31) ++ (c.extractLsb' 29 2 ++ (c.extractLsb' 17 12 ++
    (c.extractLsb' 9 8 ++ c.extractLsb' 1 8)))))
  simp only [ofBool_getLsbD_eq_slice, BitVec.extractLsb'_append_extractLsb'_eq_extractLsb']

end Machine
end Sys2Proof
end

section
/-!
SUPPORT. The checksum engine beyond its laws: the shift register in numbers, the closed form of the digest, its
linearity, and the statements of 40_checksum_engine.md settled from them.
-/
namespace Sys2Proof.Machine

/-! ### The shift register (R77, R78) -/

/-- Settles O16: the top bit is set exactly from 128 on, and below that the shift drops nothing. -/
theorem lfsrStepShiftsAndFeedsBack : Obligations.LfsrStepShiftsAndFeedsBack := by
  intro key gen
  have top : key.getLsbD 7 = decide (128 ≤ key.toNat) := BitVec.msb_eq_decide key
  have shifted : key <<< 1 = BitVec.ofNat 8 (2 * key.toNat % 256) := by
    apply BitVec.eq_of_toNat_eq
    simp [BitVec.toNat_shiftLeft, Nat.shiftLeft_eq, Nat.mul_comm]
  rw [lfsrStep, top, shifted]
  constructor <;> intro h
  · rw [if_pos (decide_eq_true h)]
  · rw [if_neg (by simpa using h), BitVec.toNat_ofNat]
    omega

/-- A zero key stays zero at every step (R81). -/
theorem keyAt_zeroKey (gen : Byte) (k : Nat) : keyAt gen 0#8 k = 0#8 := by
  induction k with
  | zero => rfl
  | succ k ih => rw [keyAt, ih, lfsrStep_zero]

/-- With generator 0 the register only shifts (R81). -/
theorem keyAt_zeroGen (key0 : Byte) (k : Nat) : keyAt 0#8 key0 k = key0 <<< k := by
  induction k with
  | zero => simp [keyAt]
  | succ k ih => simp [keyAt, ih, lfsrStep, BitVec.shiftLeft_add]

/-! ### The closed form of the digest and its linearity (R79) -/

/-- A byte in front leaves the bits that the steps before its own read. -/
theorem stepBit_cons_of_lt (b : Byte) {msg : List Byte} {k : Nat} (h : k < 8 * msg.length) :
    stepBit (b :: msg) k = stepBit msg k := by
  have index : (b :: msg).length - 1 - k / 8 = (msg.length - 1 - k / 8) + 1 := by
    rw [List.length_cons]; omega
  rw [stepBit, index, List.getD_cons_succ, stepBit]

/-- The last eight steps read the first byte. -/
theorem stepBit_cons_add (b : Byte) (msg : List Byte) {i : Nat} (h : i < 8) :
    stepBit (b :: msg) (8 * msg.length + i) = b.getLsbD i := by
  have index : (b :: msg).length - 1 - (8 * msg.length + i) / 8 = 0 := by
    rw [List.length_cons]; omega
  have bit : (8 * msg.length + i) % 8 = i := by omega
  rw [stepBit, index, bit, List.getD_cons_zero]

/-- The closed form of R79: each byte's own eight steps come after those of the bytes behind it. -/
theorem digest_eq_xorOver (msg : List Byte) (gen key0 : Byte) :
    digest msg gen key0 = xorOver (8 * msg.length) (stepBit msg) (keyAt gen key0) := by
  induction msg with
  | nil => rfl
  | cons b msg ih =>
    rw [digest_cons, ih, List.length_cons, Nat.mul_succ, xorOver_add]
    congr 1
    · exact xorOver_congr (fun k hk => (stepBit_cons_of_lt b hk).symm) (fun _ _ => rfl)
    · exact xorOver_congr (fun i hi => (stepBit_cons_add b msg hi).symm) (fun _ _ => rfl)

/-- The XOR over selected keys is linear in the selecting bits. -/
theorem xorOver_xor (n : Nat) (bit bit' : Nat → Bool) (key : Nat → Byte) :
    xorOver n (fun k => bit k ^^ bit' k) key = xorOver n bit key ^^^ xorOver n bit' key := by
  induction n with
  | zero => simp
  | succ n ih =>
    have select : (if bit n ^^ bit' n then key n else 0#8) =
        (if bit n then key n else 0#8) ^^^ (if bit' n then key n else 0#8) := by
      cases bit n <;> cases bit' n <;> simp
    rw [xorOver_succ, ih, select, xorOver_succ, xorOver_succ]
    ac_rfl

/-- The digest is linear in the message: the two messages meet the same keys. -/
theorem digest_xorMessages (gen key0 : Byte) {a b : List Byte} (h : a.length = b.length) :
    digest (xorMessages a b) gen key0 = digest a gen key0 ^^^ digest b gen key0 := by
  induction a generalizing b with
  | nil =>
    obtain rfl := List.length_eq_zero_iff.mp h.symm
    simp [xorMessages]
  | cons x a ih =>
    obtain _ | ⟨y, b⟩ := b
    · cases h
    have hlen : a.length = b.length := Nat.succ.inj h
    have hxor : (xorMessages a b).length = a.length := by simp [xorMessages, hlen]
    show digest ((x ^^^ y) :: xorMessages a b) gen key0 = _
    simp only [digest_cons, ih hlen, hxor, ← hlen, BitVec.getLsbD_xor, xorOver_xor]
    ac_rfl

/-- Settles O17: the zero digest is the closed form with no bit set. -/
theorem digestClosedFormAndLinear : Obligations.DigestClosedFormAndLinear := by
  refine ⟨digest_eq_xorOver, fun msg gen key0 hclear => ?_, fun a b gen key0 => digest_xorMessages gen key0⟩
  rw [digest_eq_xorOver, xorOver_of_clear _ hclear]

/-! ### The corner cases of R81 -/

/-- Zero keys add nothing, whatever bits select them. -/
theorem xorOver_of_zeroKeys {n : Nat} (bit : Nat → Bool) {key : Nat → Byte} (h : ∀ k < n, key k = 0#8) :
    xorOver n bit key = 0#8 := by
  induction n with
  | zero => rfl
  | succ n ih => simp [xorOver_succ, h n (by omega), ih (fun k hk => h k (by omega))]

/-- Zero bytes in front are read last and add no key. -/
theorem digest_replicate_zero_append (n : Nat) (msg : List Byte) (gen key0 : Byte) :
    digest (List.replicate n 0#8 ++ msg) gen key0 = digest msg gen key0 := by
  induction n with
  | zero => rfl
  | succ n ih =>
    rw [List.replicate_succ, List.cons_append, digest_cons, ih,
      xorOver_of_clear _ (fun _ _ => BitVec.getLsbD_zero), BitVec.xor_zero]

theorem digest_zeroKey (msg : List Byte) (gen : Byte) : digest msg gen 0#8 = 0#8 :=
  (digest_eq_xorOver msg gen 0#8).trans (xorOver_of_zeroKeys _ fun k _ => keyAt_zeroKey gen k)

/-- With generator 0 every byte but the last meets keys that eight shifts have emptied. -/
theorem digest_zeroGen (msg : List Byte) (last key0 : Byte) :
    digest (msg ++ [last]) 0#8 key0 = xorOver 8 (fun i => last.getLsbD i) (fun i => key0 <<< i) := by
  induction msg with
  | nil => simp [digest_cons, keyAt_zeroGen]
  | cons b msg ih =>
    have emptied : ∀ i < 8, keyAt 0#8 key0 (8 * (msg ++ [last]).length + i) = 0#8 := fun i _ => by
      rw [keyAt_zeroGen]
      exact BitVec.shiftLeft_eq_zero (by simp; omega)
    rw [List.cons_append, digest_cons, ih, xorOver_of_zeroKeys _ emptied, BitVec.xor_zero]

/-- Settles O18: an all-zero message is zero bytes in front of the empty one. -/
theorem digestCornerCases : Obligations.DigestCornerCases := by
  refine ⟨digest_nil, fun n gen key0 => ?_, digest_zeroKey, digest_zeroGen, digest_replicate_zero_append,
    by decide, by decide, by decide⟩
  rw [← List.append_nil (List.replicate n 0#8), digest_replicate_zero_append, digest_nil]

/-! ### The DIGEST command (R80) -/

/-- Settles O20: RES packs the digest, here in its closed form; the example is one message of length 1. -/
theorem digestDrivesTheDigest : Obligations.DigestDrivesTheDigest := by
  refine ⟨fun _ _ => decodePorts_of_digest, fun s msg gen key0 hlen => ?_,
    fun s msg gen key0 bound hb hlt => ?_, fun s hlen => ?_⟩
  · rw [exec_digest_of_within (exceedsMaxLen_of_le hlen), packUnsigned_byte, digest_eq_xorOver]
    rfl
  · exact exec_digest_of_exceeds ((exceedsMaxLen_iff _ _).mpr ⟨bound, hb, hlt⟩) gen key0
  · have value : packUnsigned (digest [0x02#8] 0x31#8 0x80#8) = 0x0031#16 := by decide
    rw [exec_digest_of_within (exceedsMaxLen_of_le hlen), value]
    rfl

end Sys2Proof.Machine
end

section
/-!
SUPPORT. What one DECODE says of the next, how a list of commands runs, and the statements of
41_telegram_decode.md settled from them.
-/
namespace Sys2Proof.Machine

variable {s t : State}

/-! ### Two DECODEs in a row -/

/-- The match against a triple just latched (41_telegram_decode.md R92). -/
theorem duplicateMatch_latchTelegram_iff (s : State) (p₁ p₂ z₁ z₂ : Nat) (c₁ c₂ : Code) (v : Bool) :
    duplicateMatch (s.latchTelegram p₁ c₁ z₁ v).H p₂ c₂ z₂ = true ↔
      SameBits c₁ c₂ 63 1 ∧ z₁ = z₂ ∧ p₁ = p₂ := by
  simp [duplicateMatch_iff, clearToggle_eq_iff]

theorem SameBits.symm {c d : Code} {hi lo : Nat} (h : SameBits c d hi lo) : SameBits d c hi lo :=
  fun i hlo hhi => (h i hlo hhi).symm

theorem SameBits.trans {c d e : Code} {hi lo : Nat} (h : SameBits c d hi lo) (h' : SameBits d e hi lo) :
    SameBits c e hi lo := fun i hlo hhi => (h i hlo hhi).trans (h' i hlo hhi)

/-- Setting bit 0 keeps bits 63 to 1. -/
theorem clearToggle_or_one (c : Code) : clearToggle (c ||| 1#64) = clearToggle c := by
  rw [clearToggle_eq_iff]
  intro i hi _
  simp [show i ≠ 0 by omega]

/-- Settles O23: the first DECODE latches the triple that the second is compared with. -/
theorem matchCoversAllButBitZero : Obligations.MatchCoversAllButBitZero := by
  intro s t u p₁ p₂ z₁ z₂ c₁ c₂ first second
  cases first
  cases second
  exact duplicateMatch_latchTelegram_iff s p₁ p₂ z₁ z₂ c₁ c₂ _

/-- Settles O24: with bit 0 cleared both codes are X, and R92 covers the protocol and the size. -/
theorem bitZeroDoesNotMatter : Obligations.BitZeroDoesNotMatter := by
  intro s p p' z z' X c d hc hd
  have clear : ∀ e, e = X ∨ e = X ||| 1#64 → clearToggle e = clearToggle X := by
    rintro e (rfl | rfl)
    · rfl
    · exact clearToggle_or_one X
  have same : SameBits c d 63 1 := (clearToggle_eq_iff c d).mp ((clear c hc).trans (clear d hd).symm)
  refine ⟨_, exec_decode p c z s, ⟨_, exec_decode p d z _, ?_⟩, fun hne => ⟨_, exec_decode p' d z' _, ?_⟩⟩
  · exact (duplicateMatch_latchTelegram_iff s p p z z c d _).mpr ⟨same, rfl, rfl⟩
  · rw [← Bool.not_eq_true]
    intro verified
    obtain ⟨-, hz, hp⟩ := (duplicateMatch_latchTelegram_iff s p p' z z' c d _).mp verified
    exact hne.elim (fun h => h hp.symm) (fun h => h hz.symm)

/-- Settles O22: the operands that fit their ports arrive whole, and the example is an instance of O24. -/
theorem decodeLatchesAndChecksHistory : Obligations.DecodeLatchesAndChecksHistory := by
  refine ⟨fun P p hc hproto hsize => ?_, fun s p c z => ?_, fun P => ?_⟩
  · rw [decodePorts_of_decode hc, onWires_of_lt hproto, onWires_of_lt hsize]
  · exact ⟨clearToggle c, duplicateMatch s.H p c z, exec_decode p c z s, clearToggle_getLsbD c,
      duplicateMatch_iff s.H p c z⟩
  · obtain ⟨t, first, ⟨u, second, hu⟩, -⟩ := bitZeroDoesNotMatter (State.resetOf P) 1 1 41 41
      0x162059850A8#64 0x162059850A8#64 0x162059850A9#64 (.inl rfl) (.inr (by decide))
    exact ⟨t, u, first, second, hu⟩

/-- Settles O27: DECODE does not look at the checksum, so the hypothesis is not used. -/
theorem verificationIgnoresTheChecksum : Obligations.VerificationIgnoresTheChecksum := by
  intro s p c z _
  obtain ⟨u, second, hu⟩ := decode_repeated_verified (exec_decode p c z s)
  exact ⟨_, u, exec_decode p c z s, rfl, second, hu⟩

/-! ### Lists of commands -/

theorem runInstrs_cons_of_next {i : Instr} (h : exec i s = .next t) (is : List Instr) :
    runInstrs (i :: is) s = runInstrs is t := by simp [runInstrs, h]

/-- A list that completes does so command by command. -/
theorem runInstrs_cons_next {i : Instr} {is : List Instr} (h : runInstrs (i :: is) s = .next t) :
    ∃ u, exec i s = .next u ∧ runInstrs is u = .next t := by
  cases he : exec i s with
  | next u => exact ⟨u, rfl, (runInstrs_cons_of_next he is).symm.trans h⟩
  | fault f => simp [runInstrs, he] at h
  | refused r => simp [runInstrs, he] at h

/-- Any number of commands other than DECODE leave both registers as they were (R96). -/
theorem runInstrs_registers {is : List Instr} (his : ∀ i ∈ is, i.isDecode = false)
    (h : runInstrs is s = .next t) : t.H = s.H ∧ t.T = s.T := by
  induction is generalizing s with
  | nil => cases h; exact ⟨rfl, rfl⟩
  | cons i is ih =>
    obtain ⟨hi, hrest⟩ := List.forall_mem_cons.mp his
    obtain ⟨u, hu, ht⟩ := runInstrs_cons_next h
    obtain ⟨r, rfl⟩ := eq_driveRes_of_exec_next hi hu
    exact ih (s := s.driveRes r) hrest ht

/-- A command other than DECODE does the same whatever H holds (R96). -/
theorem exec_withHistory {i : Instr} (hi : i.isDecode = false) (h : exec i s = .next t) (k : History) :
    exec i { s with H := k } = .next { t with H := k } := by
  rcases instr_cases i with ⟨msg, gen, key, rfl⟩ | ⟨proto, code, size, rfl⟩ | ⟨v, hv⟩
  · cases hlen : exceedsMaxLen s.params msg.length
    · rw [exec_digest_of_within hlen] at h
      cases h
      exact exec_digest_of_within (s := { s with H := k }) hlen gen key
    · rw [exec_digest_of_exceeds hlen] at h
      cases h
  · cases hi
  · rw [exec_of_readValue hv] at h ⊢
    rcases readTelegram_cases i.opcode v s with ⟨hvalid, hr⟩ | ⟨-, hr⟩ <;> cases hr.symm.trans h
    exact readTelegram_of_valid _ v hvalid

/-- Settles O25: H is still the empty slot that reset left. -/
theorem firstDecodeIsNeverVerified : Obligations.FirstDecodeIsNeverVerified := by
  intro P is t his h p c z
  obtain ⟨hH, -⟩ := runInstrs_registers his h
  have empty : t.H.valid = false := hH ▸ resetOf_H_valid P
  exact ⟨_, exec_decode p c z t, duplicateMatch_of_empty empty p c z⟩

/-- Settles O26: the next DECODE's match is computed from an unchanged H. -/
theorem onlyDecodeTouchesHistory : Obligations.OnlyDecodeTouchesHistory := by
  refine ⟨fun i s t k hi h => exec_withHistory hi h k, fun is s t his h => ?_⟩
  obtain ⟨hH, hT⟩ := runInstrs_registers his h
  refine ⟨hH, hT, fun p c z => ⟨_, _, exec_decode p c z s, exec_decode p c z t, ?_⟩⟩
  show duplicateMatch t.H p c z = duplicateMatch s.H p c z
  rw [hH]

/-! ### The window of one DECODE -/

/-- After a DECODE of a code equal to X up to bit 0, any number of further such DECODEs end with T.verified = 1,
unless there are none and the first was not verified itself. -/
theorem runInstrs_repeats {p z : Nat} {X : Code} (codes : List Code)
    (hcodes : ∀ c ∈ codes, SameBits c X 63 1) (s : State) {c : Code} (hc : SameBits c X 63 1) (v : Bool) :
    ∃ u, runInstrs (codes.map fun c => .decode p c z) (s.latchTelegram p c z v) = .next u ∧
      (u.T.verified = true ↔ v = true ∨ codes ≠ []) := by
  induction codes generalizing s c v with
  | nil => exact ⟨_, rfl, by simp⟩
  | cons d codes ih =>
    obtain ⟨hd, hrest⟩ := List.forall_mem_cons.mp hcodes
    have verified := (duplicateMatch_latchTelegram_iff s p p z z c d v).mpr ⟨hc.trans hd.symm, rfl, rfl⟩
    obtain ⟨u, hu, hiff⟩ := ih hrest (s.latchTelegram p c z v) hd true
    have first := exec_decode p d z (s.latchTelegram p c z v)
    rw [verified] at first
    rw [List.map_cons, runInstrs_cons_of_next first]
    exact ⟨u, hu, by simp [hiff]⟩

/-- Settles O28: A is compared with C alone; in the run the first DECODE is compared with the one before it,
and each other with its like. -/
theorem windowIsExactlyOneDecode : Obligations.WindowIsExactlyOneDecode := by
  refine ⟨fun s p p' z z' a c hne => ⟨_, rfl, ?_⟩, fun s t p p' z z' b X codes hb hne hcons hcodes => ?_⟩
  · rw [latchTelegram_T, ← Bool.not_eq_true, duplicateMatch_latchTelegram_iff]
    exact fun ⟨hbits, _, _⟩ => hne hbits
  · obtain ⟨c, codes, rfl⟩ := List.exists_cons_of_ne_nil hcons
    obtain ⟨hc, hrest⟩ := List.forall_mem_cons.mp hcodes
    have first := exec_decode p c z t
    have covers : duplicateMatch t.H p c z = true ↔ SameBits b c 63 1 ∧ z' = z ∧ p' = p :=
      matchCoversAllButBitZero s t _ p' p z' z b c hb first
    have unverified : ¬ duplicateMatch t.H p c z = true := fun h => by
      obtain ⟨hbits, hz, hp⟩ := covers.mp h
      exact hne ⟨hbits.trans hc, hz, hp⟩
    obtain ⟨u, hu, hiff⟩ := runInstrs_repeats codes hrest t hc (duplicateMatch t.H p c z)
    refine ⟨u, (runInstrs_cons_of_next first _).trans hu, hiff.trans ?_⟩
    rw [or_iff_right unverified, ← List.length_pos_iff, List.length_cons]
    omega

end Sys2Proof.Machine
end

section
/-!
SUPPORT. What the RD_* commands read from T, the field functions and the computed checksum in numbers and in bits,
and the statements of 42_field_extract.md settled from them.
-/
namespace Sys2Proof.Machine

variable {s t : State}

/-! ### The shared read (R105) -/

theorem isRead_of_readValue {i : Instr} {v : Telegram → Result} (h : readValue i = some v) :
    i.isRead = true := by
  cases i <;> simp_all [readValue, Instr.isRead]

theorem exec_read_of_valid {i : Instr} {v : Telegram → Result} (hi : readValue i = some v)
    (h : s.T.valid = true) : exec i s = .next (s.driveRes (v s.T)) :=
  (exec_of_readValue hi s).trans (readTelegram_of_valid _ v h)

theorem exec_read_of_empty {i : Instr} {v : Telegram → Result} (hi : readValue i = some v)
    (h : s.T.valid = false) : exec i s = .fault (.readBeforeDecode i.opcode) :=
  (exec_of_readValue hi s).trans (readTelegram_of_empty _ v h)

/-- A read completes only from a full T, and drives what it packs from it. -/
theorem exec_read_next {i : Instr} {v : Telegram → Result} (hi : readValue i = some v)
    (h : exec i s = .next t) : s.T.valid = true ∧ t = s.driveRes (v s.T) := by
  cases hv : s.T.valid
  · cases (exec_read_of_empty hi hv).symm.trans h
  · cases (exec_read_of_valid hi hv).symm.trans h
    exact ⟨rfl, rfl⟩

/-- A read that packs `f` of T.code meets R105 as soon as `f` meets the rule's relation for every code and gives
the rule's example. -/
theorem readsTelegramAs_of_code {i : Instr} (f : Code → Result) {value : Telegram → Result → Prop}
    {onE : Result} (hi : readValue i = some fun t => f t.code) (hvalue : ∀ t : Telegram, value t (f t.code))
    (hE : f 0x162059850A8#64 = onE) : ReadsTelegramAs i i.opcode value onE := by
  refine ⟨fun P p => decodePorts_of_read i (isRead_of_readValue hi), fun s hs => ?_,
    fun s => exec_read_of_empty hi, fun s hs hcode => ?_⟩
  · exact ⟨f s.T.code, exec_read_of_valid hi hs, hvalue s.T⟩
  · rw [exec_read_of_valid hi hs, hcode, hE]
    rfl

/-! ### The fields that are packed without a sign -/

/-- Settles O30. -/
theorem rdAddressReadsBits40To33 : Obligations.RdAddressReadsBits40To33 :=
  readsTelegramAs_of_code (fun c => packUnsigned (extAddress c)) rfl
    (fun t => packUnsigned_extractLsb_toNat t.code 40 33 (by decide)) (by decide)

/-- Settles O31: setting bit 0 leaves bits 8 to 1 alone. -/
theorem rdChecksumReadsBits8To1 : Obligations.RdChecksumReadsBits8To1 := by
  refine ⟨readsTelegramAs_of_code (fun c => packUnsigned (extChecksum c)) rfl
    (fun t => packUnsigned_extractLsb_toNat t.code 8 1 (by decide)) (by decide), fun c => ?_⟩
  have same : SameBits (c ||| 1#64) c 63 1 := (clearToggle_eq_iff _ _).mp (clearToggle_or_one c)
  exact extractLsb_congr (fun i hlo hhi => same i hlo (by omega)) (by decide)

/-- Settles O32: two bits hold at most 3. -/
theorem rdChannelReadsBits30To29 : Obligations.RdChannelReadsBits30To29 := by
  refine readsTelegramAs_of_code (fun c => packUnsigned (extChannel c)) rfl (fun t => ?_) (by decide)
  have slice : (packUnsigned (extChannel t.code)).toNat = t.code.toNat / 2 ^ 29 % 2 ^ 2 :=
    packUnsigned_extractLsb_toNat t.code 30 29 (by decide)
  exact ⟨slice, by omega⟩

/-- Settles O35. -/
theorem rdHumidityReadsBits16To9 : Obligations.RdHumidityReadsBits16To9 :=
  readsTelegramAs_of_code (fun c => packUnsigned (extHumidity c)) rfl
    (fun t => packUnsigned_extractLsb_toNat t.code 16 9 (by decide)) (by decide)

/-! ### The temperature (R113, R116) -/

theorem extTempRaw_toNat (c : Code) : (extTempRaw c).toNat = c.toNat / 2 ^ 17 % 2 ^ 12 := by
  rw [extTempRaw, BitVec.extractLsb_toNat, Nat.shiftRight_eq_div_pow]

/-- The raw value is at most 4095, so neither it nor the difference leaves the range -4096 to 4095 of 13 bits. -/
theorem extTempTenths_toInt (c : Code) : (extTempTenths c).toInt = ((extTempRaw c).toNat : Int) - 500 := by
  have bound : (extTempRaw c).toNat < 4096 := (extTempRaw c).isLt
  have raw : ((extTempRaw c).setWidth 13).toInt = ((extTempRaw c).toNat : Int) := by
    rw [BitVec.toInt_setWidth]
    exact Int.bmod_eq_of_le (by omega) (by omega)
  have offset : Config.tempOffset.toInt = 500 := by decide
  rw [extTempTenths, BitVec.toInt_sub, raw, offset]
  exact Int.bmod_eq_of_le (by omega) (by omega)

/-- Sign extension keeps the number (30_encoding.md R66). -/
theorem packSigned_toInt {w : Nat} (hw : w ≤ 16) (v : BitVec w) : (packSigned v).toInt = v.toInt :=
  BitVec.toInt_signExtend_of_le hw

/-- Settles O34. -/
theorem temperatureSubtractionIsExact : Obligations.TemperatureSubtractionIsExact := by
  intro c
  have bound : (extTempRaw c).toNat < 4096 := (extTempRaw c).isLt
  have exact13 := extTempTenths_toInt c
  exact ⟨exact13, (packSigned_toInt (by decide) _).trans exact13, by omega, by omega, by omega⟩

/-- Settles O33: RES carries the exact difference of O34. -/
theorem rdTemperatureReadsTenths : Obligations.RdTemperatureReadsTenths := by
  refine readsTelegramAs_of_code (fun c => packSigned (extTempTenths c)) rfl (fun t => ?_) (by decide)
  obtain ⟨-, exact16, hraw, -, -⟩ := temperatureSubtractionIsExact t.code
  exact ⟨by rw [exact16, extTempRaw_toNat], by omega, by omega⟩

/-! ### The one-bit results -/

theorem packBool_eq_ite (b : Bool) : packBool b = if b then 1#16 else 0#16 := by
  cases b <;> rfl

/-- The stored battery bit in numbers. -/
theorem extBattery_eq_decide (c : Code) : extBattery c = decide (c.toNat / 2 ^ 32 % 2 = 1) := by
  rw [extBattery, ← BitVec.testBit_toNat, Nat.testBit_eq_decide_div_mod_eq]

/-- Settles O36. -/
theorem rdBatteryOkInvertsBit32 : Obligations.RdBatteryOkInvertsBit32 := by
  refine readsTelegramAs_of_code (fun c => packBool (extBatteryOk c)) rfl (fun t => ?_) (by decide)
  simp only [extBatteryOk, extBattery_eq_decide]
  exact ⟨fun h => by rw [h]; rfl, fun h => by rw [h]; rfl⟩

/-- Settles O38: commands other than DECODE leave T, and the first DECODE after reset finds an empty slot. -/
theorem rdVerifiedDrivesTheFlag : Obligations.RdVerifiedDrivesTheFlag := by
  have drives : ∀ s : State, s.T.valid = true →
      exec .rdVerified s = .next { s with res := some (if s.T.verified then 1#16 else 0#16) } := fun s hs => by
    rw [exec_read_of_valid rfl hs, packBool_eq_ite]
    rfl
  refine ⟨fun P p => decodePorts_of_read .rdVerified rfl, drives, fun s => exec_read_of_empty rfl,
    fun is s t his h hs => ?_, fun P => ?_⟩
  · obtain ⟨-, hT⟩ := runInstrs_registers his h
    rw [← hT] at hs ⊢
    exact drives t hs
  · have first := exec_decode 1 0x162059850A8#64 41 (State.resetOf P)
    rw [duplicateMatch_of_empty (resetOf_H_valid P)] at first
    rw [runInstrs_cons_of_next first, runInstrs_cons_of_next (drives _ rfl)]
    exact ⟨_, rfl, rfl⟩

/-! ### The computed checksum (R117 to R119) -/

/-- Byte `j` of buf(c), counted from the last, is the slice of `c` that starts at bit 9 + 8j (R117). -/
theorem checksumBuffer_getD (c : Code) {j : Nat} (hj : j < 4) :
    (checksumBuffer c).getD (3 - j) 0#8 = c.extractLsb' (9 + 8 * j) 8 := by
  match j with
  | 0 | 1 | 2 | 3 => rfl

/-- Step k of the digest of buf(c) reads W(c)[k], which is bit 9 + k of the code. -/
theorem stepBit_checksumBuffer (c : Code) {k : Nat} (hk : k < 32) :
    stepBit (checksumBuffer c) k = c.getLsbD (9 + k) := by
  have position : 9 + 8 * (k / 8) + k % 8 = 9 + k := by omega
  show ((checksumBuffer c).getD (3 - k / 8) 0#8).getLsbD (k % 8) = _
  rw [checksumBuffer_getD c (by omega), BitVec.getLsbD_extractLsb', position,
    decide_eq_true (Nat.mod_lt k (by decide)), Bool.true_and]

theorem tfaChecksum_eq_xorOver (c : Code) :
    tfaChecksum c = xorOver 32 (fun k => c.getLsbD (9 + k)) (keyAt 0x31#8 0xF4#8) :=
  (digest_eq_xorOver (checksumBuffer c) 0x31#8 0xF4#8).trans
    (xorOver_congr (fun _ hk => stepBit_checksumBuffer c hk) (fun _ _ => rfl))

/-- Settles O19. -/
theorem computedChecksumClosedForm : Obligations.ComputedChecksumClosedForm :=
  fun c => ⟨rfl, tfaChecksum_eq_xorOver c⟩

/-- The closed form reads bits 40 to 9 alone. -/
theorem tfaChecksum_congr {c d : Code} (h : SameBits c d 40 9) : tfaChecksum c = tfaChecksum d := by
  rw [tfaChecksum_eq_xorOver, tfaChecksum_eq_xorOver]
  exact xorOver_congr (fun k hk => h (9 + k) (by omega) (by omega)) (fun _ _ => rfl)

/-- Settles O37: both corner cases are values at one code, which the others share. -/
theorem rdComputedChecksumDrivesR118 : Obligations.RdComputedChecksumDrivesR118 := by
  refine ⟨readsTelegramAs_of_code (fun c => packUnsigned (tfaChecksum c)) rfl (fun t => ?_) (by decide),
    fun c d => tfaChecksum_congr, fun c h => (tfaChecksum_congr h).trans (by decide),
    fun c h => (tfaChecksum_congr h).trans (by decide)⟩
  rw [packUnsigned_byte, tfaChecksum_eq_xorOver]

/-! ### Independence and the validity test (R120, R122) -/

/-- Settles O41: each field is a slice of exactly the bits its rule names, or one bit. -/
theorem fieldsReadOnlyTheirOwnBits : Obligations.FieldsReadOnlyTheirOwnBits := by
  intro c d
  refine ⟨fun h => extractLsb_congr h (by decide), fun h => extractLsb_congr h (by decide), fun h => ?_,
    fun h => extractLsb_congr h (by decide), fun h => h 31 le_rfl le_rfl, fun h => ?_,
    fun h => extractLsb_congr h (by decide)⟩
  · have raw : extTempRaw c = extTempRaw d := extractLsb_congr h (by decide)
    exact ⟨raw, by rw [extTempTenths, raw, extTempTenths]⟩
  · exact congrArg not (h 32 le_rfl le_rfl)

/-- Zero extension to RES loses nothing of a byte. -/
theorem packUnsigned_byte_inj {a b : Byte} : packUnsigned a = packUnsigned b ↔ a = b := by
  refine ⟨fun h => ?_, congrArg _⟩
  have low := congrArg (BitVec.setWidth 8) h
  simpa [packUnsigned] using low

/-- Settles O42: the first read leaves T, so both results are packed from the same code. -/
theorem hostValidityTestComparesChecksums : Obligations.HostValidityTestComparesChecksums := by
  intro s t u computed transmitted
  obtain ⟨-, rfl⟩ := exec_read_next rfl computed
  obtain ⟨-, rfl⟩ := exec_read_next rfl transmitted
  exact ⟨_, _, rfl, rfl, beq_iff_eq.trans packUnsigned_byte_inj⟩

end Sys2Proof.Machine
end

section
/-!
SUPPORT. The three ways a served command does not complete, what each leaves of a run, and the statements of
60_exceptions.md settled from them.
-/
namespace Sys2Proof.Machine

variable {s t : State} {r : Run} {p : Ports}

/-! ### The outcomes other than a next state (R134) -/

theorem runCommand_of_reserved (h : p.cmd ∈ [0x0#4, 0x3#4, 0x4#4, 0x5#4, 0x6#4, 0x7#4]) :
    runCommand p s = .refused (.reservedOpcode p.cmd) := runCommand_of_error (decodePorts_of_reserved h)

theorem exec_digest_of_overlong {msg : List Byte} {bound : Nat} (hb : s.params.digestMaxLen = some bound)
    (hlt : bound < msg.length) (gen key : Byte) :
    exec (.digest msg gen key) s = .refused (.messageTooLong msg.length) :=
  exec_digest_of_exceeds ((exceedsMaxLen_iff _ _).mpr ⟨bound, hb, hlt⟩) gen key

theorem runCommand_of_overlong {bound : Nat} (hc : p.cmd = 0x1#4) (hb : s.params.digestMaxLen = some bound)
    (hlt : bound < p.opLen) : runCommand p s = .refused (.messageTooLong p.opLen) :=
  (runCommand_of_ok (decodePorts_of_digest hc)).trans (exec_digest_of_overlong hb hlt _ _)

theorem exec_isRead_of_empty {i : Instr} (hi : i.isRead = true) (h : s.T.valid = false) :
    exec i s = .fault (.readBeforeDecode i.opcode) := by
  obtain ⟨v, hv⟩ := readValue_of_isRead hi
  exact exec_read_of_empty hv h

theorem exec_isRead_of_valid {i : Instr} (hi : i.isRead = true) (h : s.T.valid = true) :
    ∃ v, exec i s = .next (s.driveRes v) := by
  obtain ⟨v, hv⟩ := readValue_of_isRead hi
  exact ⟨_, exec_read_of_valid hv h⟩

theorem runCommand_isRead_of_empty {i : Instr} (hi : i.isRead = true) (hc : p.cmd = i.opcode)
    (h : s.T.valid = false) : runCommand p s = .fault (.readBeforeDecode p.cmd) := by
  rw [runCommand_of_ok (decodePorts_of_read i hi hc), exec_isRead_of_empty hi h, hc]

/-- The words of format R are the upper half of the opcode map (R61). -/
theorem opcode_ge_of_isRead {i : Instr} (hi : i.isRead = true) : 0x8#4 ≤ i.opcode := by
  cases i <;> simp_all [Instr.isRead, Instr.opcode]

/-- Settles O46: the four lines of the opcode map, DIGEST split on its bound and a read on T.valid. -/
theorem outcomesAreTheCompleteList : Obligations.OutcomesAreTheCompleteList := by
  intro p s
  obtain ⟨decodeCompletes, digestCompletes⟩ := everyOperandValueIsAccepted
  rcases decodePorts_cases s.params p with ⟨hc, -⟩ | ⟨hc, -⟩ | ⟨i, hi, hc, hd⟩ | ⟨hc, -⟩
  · by_cases hlen : ∀ bound, s.params.digestMaxLen = some bound → p.opLen ≤ bound
    · exact .inr (.inr (.inr ⟨.inl ⟨hc, hlen⟩, digestCompletes s p hc hlen⟩))
    · push Not at hlen
      obtain ⟨bound, hb, hlt⟩ := hlen
      exact .inr (.inl ⟨hc, ⟨bound, hb, hlt⟩, runCommand_of_overlong hc hb hlt⟩)
  · exact .inr (.inr (.inr ⟨.inr (.inl hc), decodeCompletes s p hc⟩))
  · have hge : 0x8#4 ≤ p.cmd := hc ▸ opcode_ge_of_isRead hi
    cases hT : s.T.valid
    · exact .inr (.inr (.inl ⟨hge, rfl, runCommand_isRead_of_empty hi hc hT⟩))
    · obtain ⟨v, hv⟩ := exec_isRead_of_valid hi hT
      exact .inr (.inr (.inr ⟨.inr (.inr ⟨hge, rfl⟩), _, (runCommand_of_ok hd).trans hv⟩))
  · exact .inl ⟨hc, runCommand_of_reserved hc⟩

/-! ### A run that meets a command that does not complete (R137, R138) -/

/-- A command that does not complete leaves the state, appends no result, and marks the run. -/
theorem Run.feed_of_stop (h : ∀ t, runCommand p r.state ≠ .next t) :
    (r.feed p).state = r.state ∧ (r.feed p).results = r.results ++ [none] ∧ (r.feed p).good = false := by
  rcases feed_cases r p with ⟨t, ht, -⟩ | ⟨m, -, hf⟩
  · exact absurd ht (h t)
  · rw [hf]
    exact ⟨rfl, rfl, by cases r.mark <;> rfl⟩

/-- Settles O47: the word is rejected before anything runs, in a step and in a run alike. -/
theorem reservedWordsAreRefused : Obligations.ReservedWordsAreRefused := by
  intro p hc
  refine ⟨fun s rest hq => ?_, fun r => Run.feed_of_stop (by simp [runCommand_of_reserved hc])⟩
  rw [step_of_command hq, runCommand_of_reserved hc]
  rfl

/-- Settles O21: `exec` refuses beyond the bound, so does the served command, and with no bound nothing is
beyond it. -/
theorem overlongDigestIsRefused : Obligations.OverlongDigestIsRefused := by
  refine ⟨fun s msg gen key bound hb hlt => exec_digest_of_overlong hb hlt gen key,
    fun r p bound hc hb hlt => Run.feed_of_stop (by simp [runCommand_of_overlong hc hb hlt]),
    fun s msg gen key hnone => ?_⟩
  have within : exceedsMaxLen s.params msg.length = false := exceedsMaxLen_of_le (by simp [hnone])
  exact ⟨_, exec_digest_of_within within gen key⟩

/-- Settles O39: the eight reads are one shared read of T. -/
theorem readsNeedADecodedTelegram : Obligations.ReadsNeedADecodedTelegram := fun _ hi =>
  ⟨fun _ => exec_isRead_of_valid hi, fun _ => exec_isRead_of_empty hi,
    fun _ _ hc hT => Run.feed_of_stop (by simp [runCommand_isRead_of_empty hi hc hT])⟩

/-! ### The mark of a run -/

theorem Run.feed_mark {m : Stop} (h : r.mark = some m) (p : Ports) : (r.feed p).mark = some m := by
  rcases feed_cases r p with ⟨t, -, hf⟩ | ⟨n, -, hf⟩ <;> simp [hf, h]

/-- The first mark is kept whatever is fed later. -/
theorem Run.foldl_feed_mark {m : Stop} (h : r.mark = some m) (ps : List Ports) :
    (ps.foldl Run.feed r).mark = some m := by
  induction ps generalizing r with
  | nil => exact h
  | cons p ps ih => exact ih (Run.feed_mark h p)

theorem serveCommands_cons_of_next (h : runCommand p s = .next t) (ps : List Ports) :
    serveCommands (p :: ps) s = serveCommands ps t := by simp [serveCommands, h]

theorem serveCommands_cons_of_stop (h : ∀ t, runCommand p s ≠ .next t) (ps : List Ports) (u : State) :
    serveCommands (p :: ps) s ≠ .next u := by
  cases hp : runCommand p s with
  | next t => exact absurd hp (h t)
  | fault f => simp [serveCommands, hp]
  | refused e => simp [serveCommands, hp]

/-- A run stays good exactly as long as serving its commands does not stop. -/
theorem Run.foldl_feed_good_iff (ps : List Ports) (r : Run) :
    (ps.foldl Run.feed r).good = true ↔ r.good = true ∧ ∃ t, serveCommands ps r.state = .next t := by
  induction ps generalizing r with
  | nil => simp [serveCommands]
  | cons p ps ih =>
    rw [List.foldl_cons, ih]
    rcases feed_cases r p with ⟨t, ht, hf⟩ | ⟨m, hstop, -⟩
    · rw [serveCommands_cons_of_next ht, hf]
      rfl
    · obtain ⟨-, -, hbad⟩ := Run.feed_of_stop hstop
      simp [hbad, serveCommands_cons_of_stop hstop]

/-- Settles O48: a run starts good, in the state after reset. -/
theorem runMarkIsNeverCleared : Obligations.RunMarkIsNeverCleared := by
  refine ⟨fun r ps m h => Run.foldl_feed_mark h ps, fun r p hstop => (Run.feed_of_stop hstop).1,
    fun P ps => ?_⟩
  have start : (Run.start P).good = true := rfl
  exact (Run.foldl_feed_good_iff ps _).trans (and_iff_right start)

end Sys2Proof.Machine
end

section
/-!
SUPPORT. What RESET empties, what a run records of each command and where it ends, and the statements of
70_reset_and_hazards.md settled from them.
-/
namespace Sys2Proof.Machine

variable {s t : State} {r : Run} {p : Ports}

/-! ### Waiting and RESET (R150, R152) -/

/-- Settles O7. -/
theorem stepWaitsForACommand : Obligations.StepWaitsForACommand := fun _ => step_of_nil

theorem step_of_reset {rest : List HostInput} (h : s.inputs = .reset :: rest) :
    step s = .next (State.resetSignal { s with inputs := rest }) := step_of_cons h

/-- Settles O10: DECODE finds no match in the slot that RESET empties; of the other steps one leaves H as it
was, and one makes it valid. -/
theorem resetSignalEmptiesHistory : Obligations.ResetSignalEmptiesHistory := by
  refine ⟨fun s rest hq => ?_, fun s t hvalid h hempty => ?_⟩
  · refine ⟨_, step_of_reset hq, rfl, rfl, rfl, rfl, fun proto code size => ?_⟩
    have empty : (State.resetOf s.params).H.valid = false := resetOf_H_valid s.params
    exact ⟨_, exec_decode proto code size _, duplicateMatch_of_empty empty proto code size⟩
  · rcases step_next_registers h with ⟨hH, -⟩ | ⟨hreset, -, -⟩ | ⟨p, rest, -, -, v, rfl⟩
    · simp [hH, hvalid] at hempty
    · exact hreset
    · simp at hempty

/-! ### The observation of a run (R157) -/

theorem Run.feed_of_next (h : runCommand p r.state = .next t) :
    r.feed p = { state := t, results := r.results ++ [t.res], mark := r.mark } := by
  simp [Run.feed, h]

/-- DECODE drives no result, every other command that completes drives one (30_encoding.md R66, R67). -/
theorem runCommand_next_res (h : runCommand p s = .next t) :
    (p.cmd = 0x2#4 → t.res = none) ∧ (p.cmd ≠ 0x2#4 → ∃ v, t.res = some v) := by
  rcases runCommand_next_cases h with ⟨hc, v, rfl⟩ | ⟨hc, v, rfl⟩
  · exact ⟨fun hdecode => absurd hdecode hc, fun _ => ⟨v, rfl⟩⟩
  · exact ⟨fun _ => rfl, fun hother => absurd hc hother⟩

theorem Run.feed_results_length (r : Run) (p : Ports) :
    (r.feed p).results.length = r.results.length + 1 := by
  rcases feed_cases r p with ⟨t, -, hf⟩ | ⟨m, -, hf⟩ <;> simp [hf]

/-- A run records one result for each command it is fed. -/
theorem Run.foldl_feed_results_length (ps : List Ports) (r : Run) :
    (ps.foldl Run.feed r).results.length = r.results.length + ps.length := by
  induction ps generalizing r with
  | nil => rfl
  | cons p ps ih =>
    rw [List.foldl_cons, ih, Run.feed_results_length, List.length_cons]
    omega

/-- When serving the commands completes, the run ends in the state that it completes in. -/
theorem Run.foldl_feed_state (ps : List Ports) (r : Run) (h : serveCommands ps r.state = .next t) :
    (ps.foldl Run.feed r).state = t := by
  induction ps generalizing r with
  | nil => cases h; rfl
  | cons p ps ih =>
    rcases feed_cases r p with ⟨u, hu, hf⟩ | ⟨m, hstop, -⟩
    · rw [List.foldl_cons, hf]
      exact ih _ ((serveCommands_cons_of_next hu ps).symm.trans h)
    · exact absurd h (serveCommands_cons_of_stop hstop ps t)

/-- Settles O49: a run starts with no results, in the state after reset. -/
theorem runObservesOneResultPerCommand : Obligations.RunObservesOneResultPerCommand := by
  refine ⟨fun r p t h => ?_, fun r p hstop => ?_, fun P ps => ?_, fun P ps t h => ?_⟩
  · rw [Run.feed_of_next h]
    exact ⟨rfl, rfl, runCommand_next_res h⟩
  · obtain ⟨-, hresults, -⟩ := Run.feed_of_stop hstop
    exact hresults
  · exact (Run.foldl_feed_results_length ps (Run.start P)).trans (Nat.zero_add _)
  · exact Run.foldl_feed_state ps (Run.start P) h

end Sys2Proof.Machine
end
